-- ==== Sys2Proof/Word.lean ====
section
/-! DEFINITION. Lanes, and the binary length of a natural (00_scope.md §4). An ordinal is a plain `Nat` (10_state.md R22). -/

namespace Sys2Proof

/-- A lane of `w` bits: one character's ordinal in binary, bit q of weight 2^q (20_memory.md R41). -/
abbrev Lane (w : Nat) := BitVec w

/-- `bitlength(x)` of 00_scope.md §4: the number of bits in the binary form of `x`, with bitlength(0) = 0. -/
def bitLength (x : Nat) : Nat := if x = 0 then 0 else Nat.log2 x + 1

end Sys2Proof
end

