-- ==== Sys2Proof/Config.lean ====
section
/-! DEFINITION. What is fixed when a block is built: K, W and the port widths (00_scope.md R5 to R7), and the derived
widths of the buses (30_encoding.md R60, R63). No state holds any of it (10_state.md R24). -/

namespace Sys2Proof

/-- The elaboration-time parameters of a block (R5, R7). -/
structure Config where
  /-- K, the characters (and lanes) of a chunk; default 4 (R5). -/
  K : Nat
  /-- W, the bits of a lane; default 8 (R5). -/
  W : Nat
  /-- OW, the width of one ordinal input field; default 21 (R7, decision D3). -/
  OW : Nat
  /-- XW, the width of the decode operand; default 64 when N <= 62, else N+2 (R7, decision D5). -/
  XW : Nat
  deriving DecidableEq, Repr

namespace Config

/-- N = K*W, the width of an EncodedWord (R6). -/
def N (c : Config) : Nat := c.K * c.W

/-- CNTW = bitlength(K+1), the width of the count fields (R7, decision D4). -/
def CNTW (c : Config) : Nat := bitLength (c.K + 1)

/-- RQW, the width of a request word (30_encoding.md R60). -/
def RQW (c : Config) : Nat := 1 + max (c.CNTW + c.K * c.OW) c.XW

/-- RSW, the width of a response word (30_encoding.md R63). -/
def RSW (c : Config) : Nat := 2 + c.CNTW + c.N

/-- What the spec asks of the parameters: K >= 1 and W >= 1 (R5, D24), OW >= W and XW >= N+2 (R7). -/
abbrev WF (c : Config) : Prop := 1 ≤ c.K ∧ 1 ≤ c.W ∧ c.W ≤ c.OW ∧ c.N + 2 ≤ c.XW

/-- The block of the given K and W with the port widths' defaults of R7. -/
def ofKW (K W : Nat) : Config := ⟨K, W, 21, if K * W ≤ 62 then 64 else K * W + 2⟩

/-- The defaults K = 4, W = 8, OW = 21, XW = 64 (R5, R7): the block whose words spec/opcode_table.json lays out. -/
def standard : Config := ofKW 4 8

/-- T_settle, the settle time of the combinational logic: OPEN (decision D14; 93 U7). It has no value here and no rule
depends on it (70_reset_and_hazards.md R183, R187). -/
opaque tSettle : Nat

end Config

end Sys2Proof
end

