-- ==== Sys2Proof/Syntax.lean ====
section
/-! DEFINITION. The two operations of spec/opcode_table.json with the request fields that each format gives them
(10_state.md R23; 30_encoding.md R61, R62). One type serves every configuration: WellFormed holds the widths. -/

namespace Sys2Proof

/-- One request of the block, as its input fields. -/
inductive Instr where
  /-- ENC_CHUNK (op = 0, R100): the count field `n` and all K ordinal fields `ch_0, ..., ch_{K-1}`, read or not. -/
  | encChunk (n : Nat) (chs : List Nat)
  /-- DEC_CHUNK (op = 1, R120): the candidate word `x = sint(din)`. -/
  | decChunk (x : Int)
  deriving DecidableEq, Repr

end Sys2Proof
end

