-- ==== Sys2Proof/WellFormed.lean ====
section
/-! DEFINITION. Which requests can be presented at the ports of a block: every field fits its width (10_state.md R23). -/

namespace Sys2Proof

/-- `n` fits the count field: 0..2^CNTW-1 (R65). -/
def countFits (c : Config) (n : Nat) : Bool := decide (n < 2 ^ c.CNTW)

/-- There is one ordinal field for each of the K source positions (R61). -/
def hasAllFields (c : Config) (chs : List Nat) : Bool := decide (chs.length = c.K)

/-- Each ordinal fits its field: 0..2^OW-1 (R65). -/
def ordinalsFit (c : Config) (chs : List Nat) : Bool := chs.all fun o => decide (o < 2 ^ c.OW)

/-- `x` is an XW-bit two's-complement value: -2^(XW-1)..2^(XW-1)-1 (R65). -/
def operandFits (c : Config) (x : Int) : Bool := decide (-(2 ^ (c.XW - 1) : Int) ≤ x ∧ x < (2 ^ (c.XW - 1) : Int))

/-- The request can be presented at the ports of a block built with `c`. -/
def Instr.wf (c : Config) : Instr → Bool
  | .encChunk n chs => countFits c n && hasAllFields c chs && ordinalsFit c chs
  | .decChunk x => operandFits c x

end Sys2Proof
end

