-- ==== Sys2Proof/Decode.lean ====
section
/-! DEFINITION. Request words: decoding (30_encoding.md R60 to R62, R65) and, after it, the encoder written from the same
tables. Every RQW-bit word is exactly one operation, so the decoder rejects nothing (R66). -/

namespace Sys2Proof

/-- One request bus of a block built with `c`: RQW bits, bit 0 the opcode (R60). -/
abbrev RequestWord (c : Config) := BitVec c.RQW

/-- The field of `len` bits whose lowest bit is request bit `lo`. -/
def requestField (c : Config) (w : RequestWord c) (lo len : Nat) : BitVec len := w.extractLsb' lo len

/-- `op`, bit [0]: false is ENC_CHUNK, true is DEC_CHUNK (R60, R66). -/
def opField (c : Config) (w : RequestWord c) : Bool := w.getLsbD 0

/-- `n`, bits [CNTW:1], zero-extended (R61, R65). -/
def countField (c : Config) (w : RequestWord c) : Nat := (requestField c w 1 c.CNTW).toNat

/-- `ch_j`, bits [CNTW+(j+1)*OW : CNTW+j*OW+1], zero-extended (R61, R65). -/
def ordinalField (c : Config) (w : RequestWord c) (j : Nat) : Nat :=
  (requestField c w (c.CNTW + j * c.OW + 1) c.OW).toNat

/-- `din`, bits [XW:1], read as two's complement (R62, R65; R10 for the sign). -/
def operandField (c : Config) (w : RequestWord c) : Int := (requestField c w 1 c.XW).toInt

/-- The operation a request word presents. Bit 0 alone selects the format; no word is illegal (R60, R66). -/
def decode (c : Config) (w : RequestWord c) : Instr :=
  if opField c w then .decChunk (operandField c w)
  else .encChunk (countField c w) ((List.range c.K).map (ordinalField c w))

/-- Ordinals side by side, source position 0 in the lowest field, OW bits each (20_memory.md R42, R61). -/
def packOrdinals (ow : Nat) : List Nat → Nat
  | [] => 0
  | o :: os => o % 2 ^ ow + 2 ^ ow * packOrdinals ow os

/-- The request word of an operation: the ENC-REQ format (R61) or the DEC-REQ format (R62). It leaves the ignored bits 0
(DESIGN CHOICE, log entry 20). -/
def encode (c : Config) : Instr → RequestWord c
  | .encChunk n chs =>
      BitVec.ofNat c.RQW (2 * (n % 2 ^ c.CNTW + 2 ^ c.CNTW * packOrdinals c.OW (chs.take c.K)))
  | .decChunk x => BitVec.ofNat c.RQW (1 + 2 * (BitVec.ofInt c.XW x).toNat)

/-- The request word whose low `nbits` bits are those of `w` and whose other bits are 0. R60 gives a request one length and
speaks of no other: filling up a shorter table word with zeros and dropping the bits of a longer one from RQW on are the
model's (DESIGN CHOICE, log entry 5). -/
def requestOfTableWord (c : Config) (nbits w : Nat) : RequestWord c := BitVec.ofNat c.RQW (w % 2 ^ nbits)

/-- The operation of a table word of the default block: 88 bits, numbered as spec/opcode_table.json numbers them. A shorter
word is read with its upper bits 0, and a word longer than a request is none of this block's (DESIGN CHOICE, log entry 5). -/
def decodeTableWord (nbits w : Nat) : Option Instr :=
  if nbits ≤ Config.standard.RQW then some (decode Config.standard (requestOfTableWord Config.standard nbits w)) else none

end Sys2Proof
end

