-- ==== Sys2Proof/Machine/State.lean ====
section
/-! DEFINITION. What a run of the block shows. THE BLOCK HOLDS NO STATE (10_state.md R20): every field below is a port's
present value or the host's side of the ports (R21, R23), at the default configuration. -/

namespace Sys2Proof.Machine

/-- One response bus of a block built with `c`: RSW bits (30_encoding.md R63). -/
abbrev ResponseWord (c : Config) := BitVec c.RSW

/-- The two buses of the block, and the host that presents requests and reads responses (R21). K and W are not here: they
are configuration (R24). -/
structure State where
  /-- The host's requests not yet presented, the next one first (R21; log entry 2). -/
  pending : List (RequestWord Config.standard)
  /-- The request bus as the host holds it now (R60). -/
  req : RequestWord Config.standard
  /-- The response bus now (R63). -/
  resp : ResponseWord Config.standard
  /-- The responses the host has read, oldest first (95_test_vectors.md §4; log entry 2). -/
  responses : List (ResponseWord Config.standard)
  deriving DecidableEq, Repr

/-- Reasons a step can stop with a fault: there are none. An error is a response, not a fault of the model
(60_exceptions.md R160, decision D17), and no request diverges or blocks (R28). Safe: nothing raises it. -/
inductive Fault where
  deriving DecidableEq, Repr

/-- Reasons a step can be refused. -/
inductive Refusal where
  /-- An instruction that has no meaning in this model yet; raised by an arm of `exec` alone. Safe. No arm raises it. -/
  | notModelled (mnemonic : String)
  deriving DecidableEq, Repr

/-- The machine at power-up: nothing asked and nothing answered. The spec has no reset value to give (R27, R180); the
all-zero request bus is the model's (DESIGN CHOICE, log entry 3), and the response bus is what R27 makes of it. -/
def State.reset : State := { pending := [], req := 0, resp := 0, responses := [] }

end Sys2Proof.Machine
end

