-- ==== Sys2Proof/Machine/Requests.lean ====
section
/-! DEFINITION. The abstract interface: requests, responses and errors (10_state.md R22). -/

namespace Sys2Proof.Machine

/-- A request of the abstract interface (R22). -/
inductive Request where
  /-- `Enc cs`: the ordinals of one chunk in source order, `cs[0]` first. -/
  | enc (cs : List Nat)
  /-- `Dec x`: one candidate EncodedWord, an unbounded integer. -/
  | dec (x : Int)
  deriving DecidableEq, Repr

/-- The three errors of the source's taxonomy, and no other (60_exceptions.md R164). -/
inductive ErrCode where
  | chunkTooLong
  | laneWidthExceeded
  | malformedWord
  deriving DecidableEq, Repr

/-- What `raise E(info)` of the pseudocode carries: the error and its index (R22, 00_scope.md §4). -/
structure Raised where
  code : ErrCode
  idx : Nat
  deriving DecidableEq, Repr

/-- The K lanes of a chunk by source position, lane `P j` that of position j (00_scope.md R8). -/
abbrev Lanes (c : Config) := Fin c.K → Lane c.W

/-- An N-bit EncodedWord (R6). -/
abbrev EncodedWord (c : Config) := BitVec c.N

/-- What a successful DEC_CHUNK gives: the count of characters and the K lanes (R22). -/
structure Decoded (c : Config) where
  count : Nat
  lanes : Lanes c
  deriving DecidableEq

/-- A response of the abstract interface (R22). An error carries no data (R166). -/
inductive Response (c : Config) where
  | word (w : EncodedWord c)
  | chars (count : Nat) (P : Lanes c)
  | error (e : ErrCode) (idx : Nat)
  deriving DecidableEq

end Sys2Proof.Machine
end

