-- ==== Sys2Proof/Machine/Ops.lean ====
section
/-! DEFINITION. The shared operations: words from their bits, lanes by position, the linear packing of K lanes, and what
the block and the host do to the ports. There is no memory, no register and no trap to operate on (R20, R40, R169). -/

namespace Sys2Proof.Machine

/-- The `n`-bit word whose bit i is `f i`. -/
def ofBits : (n : Nat) → (Nat → Bool) → BitVec n
  | 0, _ => 0#0
  | n + 1, f => BitVec.cons (f n) (ofBits n f)

/-- The lane of source position `j`; a position outside the chunk has the zero lane. -/
def laneAt {c : Config} (P : Lanes c) (j : Nat) : Lane c.W := if h : j < c.K then P ⟨j, h⟩ else 0#c.W

/-- `{P_{K-1}, ..., P_1, P_0}`: the lanes side by side, source position 0 lowest (20_memory.md R42; R64). -/
def linearPack (c : Config) (P : Lanes c) : EncodedWord c := ofBits c.N fun b => (laneAt P (b / c.W)).getLsbD (b % c.W)

/-- `P_j = field[j*W + W-1 : j*W]` (R42, R64): the lanes of a linearly packed field. -/
def linearUnpack (c : Config) (v : EncodedWord c) : Lanes c := fun j => v.extractLsb' (j.val * c.W) c.W

/-- A word, or the error raised instead, as a response of ENC_CHUNK. -/
def encResponse {c : Config} : Except Raised (EncodedWord c) → Response c
  | .ok w => .word w
  | .error r => .error r.code r.idx

/-- The decoded lanes, or the error raised instead, as a response of DEC_CHUNK. -/
def decResponse {c : Config} : Except Raised (Decoded c) → Response c
  | .ok d => .chars d.count d.lanes
  | .error r => .error r.code r.idx

/-- The host presents its next request: it leaves the queue and stands on the request bus (R21). -/
def State.present (s : State) (w : RequestWord Config.standard) (rest : List (RequestWord Config.standard)) : State :=
  { s with req := w, pending := rest }

/-- The block drives its response bus (R23, R27). It changes nothing else: it has nothing else (R20). -/
def State.driveBus (s : State) (r : ResponseWord Config.standard) : State := { s with resp := r }

/-- The host reads the response on the bus (R21). -/
def State.readResponse (s : State) : State := { s with responses := s.responses ++ [s.resp] }

end Sys2Proof.Machine
end

