-- ==== Sys2Proof/Machine/Flags.lean ====
section
/-! DEFINITION. The status outputs. The block has no flags: `err` and `aux` belong to the current response and nothing
keeps or reads them later (10_state.md R25). Their codes, what aux and data hold, and the response bus (R23, R63 to R66,
R165, R166). -/

namespace Sys2Proof.Machine

/-- The three output fields of the ports (R23). -/
structure PortOutputs (c : Config) where
  err : BitVec 2
  aux : BitVec c.CNTW
  data : BitVec c.N
  deriving DecidableEq, Repr

/-- The code of an error in the err field (R165, decision D6). -/
def ErrCode.code : ErrCode → BitVec 2
  | .chunkTooLong => 1
  | .laneWidthExceeded => 2
  | .malformedWord => 3

/-- The error of an err field; code 0 is success (R165). -/
def errorOfCode (e : BitVec 2) : Option ErrCode :=
  match e.toNat with
  | 0 => none
  | 1 => some .chunkTooLong
  | 2 => some .laneWidthExceeded
  | _ => some .malformedWord

/-- How a response stands on the output fields (R23, R64, R166): on an error the data is all zeros. -/
def Response.ports {c : Config} : Response c → PortOutputs c
  | .word w => ⟨0, 0, w⟩
  | .chars count P => ⟨0, BitVec.ofNat c.CNTW count, linearPack c P⟩
  | .error e idx => ⟨e.code, BitVec.ofNat c.CNTW idx, 0⟩

/-- The response bus: err at [1:0], aux at [CNTW+1:2], data at [CNTW+N+1:CNTW+2] (R63). -/
def PortOutputs.bus {c : Config} (p : PortOutputs c) : ResponseWord c :=
  (p.data ++ p.aux ++ p.err).cast (by unfold Config.RSW; omega)

/-- A response as the word on the response bus. -/
def Response.bus {c : Config} (r : Response c) : ResponseWord c := r.ports.bus

/-- `err`, response bits [1:0] (R63). -/
def errOf (c : Config) (r : ResponseWord c) : BitVec 2 := r.extractLsb' 0 2

/-- `aux`, response bits [CNTW+1:2] (R63). -/
def auxOf (c : Config) (r : ResponseWord c) : BitVec c.CNTW := r.extractLsb' 2 c.CNTW

/-- `data`, response bits [CNTW+N+1:CNTW+2] (R63). -/
def dataOf (c : Config) (r : ResponseWord c) : BitVec c.N := r.extractLsb' (c.CNTW + 2) c.N

/-- The word the host reads from a response to ENC_CHUNK, testing err before data (R186). -/
def readWord (c : Config) (r : ResponseWord c) : Except Raised (EncodedWord c) :=
  match errorOfCode (errOf c r) with
  | none => .ok (dataOf c r)
  | some e => .error ⟨e, (auxOf c r).toNat⟩

/-- The count and lanes the host reads from a response to DEC_CHUNK, testing err before aux and data (R186, R64). -/
def readDecoded (c : Config) (r : ResponseWord c) : Except Raised (Decoded c) :=
  match errorOfCode (errOf c r) with
  | none => .ok ⟨(auxOf c r).toNat, linearUnpack c (dataOf c r)⟩
  | some e => .error ⟨e, (auxOf c r).toNat⟩

end Sys2Proof.Machine
end

