-- ==== Sys2Proof/Machine/Lane.lean ====
section
/-! DEFINITION. The lane unit, the source's LaneCodec (40_lane.md). It has no opcode: both operations use it. -/

namespace Sys2Proof.Machine

/-- `toLane(o)` (R80): the W-bit lane of an ordinal, or LaneWidthExceeded when it needs more than W bits. It never
truncates (R82). -/
def toLane (c : Config) (o : Nat) : Except ErrCode (Lane c.W) :=
  if 2 ^ c.W ≤ o then .error .laneWidthExceeded else .ok (BitVec.ofNat c.W o)

/-- `fromLane(L)` (R83): the unsigned value of a lane. Total. -/
def fromLane (c : Config) (L : Lane c.W) : Nat := L.toNat

end Sys2Proof.Machine
end

