-- ==== Sys2Proof/Machine/Operands.lean ====
section
/-! DEFINITION. Operand assembly: the request of the abstract interface that the fields of a request word present
(30_encoding.md R65), and the two range tests as the ports' high bits make them (R81, R121). -/

namespace Sys2Proof.Machine

/-- `c_j`: the ordinal field of source position j, read for j < min(n, K) alone (R61, R65). The positions from K on have
no field: when n > K they are only counted, and their value never matters (R65, R101). -/
def presentedOrdinal (c : Config) (chs : List Nat) (j : Nat) : Nat := if j < c.K then chs.getD j 0 else 0

/-- The chunk that the fields `n` and `ch_j` present (R65): n characters, the first min(n, K) of them from the fields. -/
def presentedChunk (c : Config) (n : Nat) (chs : List Nat) : List Nat :=
  (List.range n).map (presentedOrdinal c chs)

/-- The abstract request of a port request (R23, R65). -/
def requestOf (c : Config) : Instr → Request
  | .encChunk n chs => .enc (presentedChunk c n chs)
  | .decChunk x => .dec x

/-- The port's range test of an ordinal field: some bit of `ch_j[OW-1:W]` is set (40_lane.md R81). -/
def ordinalHighBitSet (c : Config) (ch : BitVec c.OW) : Bool := ch.extractLsb' c.W (c.OW - c.W) != 0

/-- The port's range test of the decode operand: some bit of `din[XW-1:N]` is set (42_chunk_decode.md R121). -/
def operandHighBitSet (c : Config) (din : BitVec c.XW) : Bool := din.extractLsb' c.N (c.XW - c.N) != 0

end Sys2Proof.Machine
end

