-- ==== Sys2Proof/Machine/ChunkDecode.lean ====
section
/-! DEFINITION. DEC_CHUNK (42_chunk_decode.md): the range check, the inverse transpose, the strip, and the instruction's
meaning. -/

namespace Sys2Proof.Machine

/-- The inverse transpose (R122): bit q of lane j is word bit q*K + j. -/
def deinterleave (c : Config) (w : EncodedWord c) : Lanes c := fun j =>
  ofBits c.W fun q => w.getLsbD (q * c.K + j.val)

/-- The strip (R120 step 3, R123): one more than the highest position with a non-zero lane, and never less than 1. -/
def keptCount (c : Config) (P : Lanes c) : Nat :=
  (List.range c.K).foldl (fun count j => if 1 ≤ j ∧ laneAt P j ≠ 0#c.W then j + 1 else count) 1

/-- DEC_CHUNK (R120): the range check (R121), the inverse transpose (R122) and the strip (R123). The source's
`decodeChunk`. -/
def decodeChunk (c : Config) (x : Int) : Except Raised (Decoded c) :=
  if x < 0 ∨ (2 ^ c.N : Int) ≤ x then .error ⟨.malformedWord, 0⟩
  else .ok ⟨keptCount c (deinterleave c (BitVec.ofInt c.N x)), deinterleave c (BitVec.ofInt c.N x)⟩

/-- The decoded chunk of a DEC_CHUNK result: the kept lanes as ordinals in source order (R22, R124). -/
def Decoded.chunk {c : Config} (d : Decoded c) : List Nat :=
  (List.range d.count).map fun j => fromLane c (laneAt d.lanes j)

/-- DEC_CHUNK as a response (R28, R120). -/
def decChunk (c : Config) (x : Int) : Response c := decResponse (decodeChunk c x)

/-- The meaning of DEC_CHUNK: the response of the presented operand stands on the response bus (R44, R65, R120). -/
def execDecChunk (x : Int) (s : State) : Host.Outcome State Fault Refusal :=
  .next (s.driveBus (decChunk Config.standard x).bus)

end Sys2Proof.Machine
end

