-- ==== Sys2Proof/Machine/ChunkEncode.lean ====
section
/-! DEFINITION. ENC_CHUNK (41_chunk_encode.md): the checks, the padding, the transpose, and the instruction's meaning. -/

namespace Sys2Proof.Machine

/-- The source positions whose ordinals do not fit W bits, in rising order: `bad` of R100. -/
def badPositions (c : Config) (cs : List Nat) : List Nat :=
  (List.range cs.length).filter fun j => decide (2 ^ c.W ≤ cs.getD j 0)

/-- The padding stage (R102): the lane of character j where there is one, and a zero lane from position n on. -/
def padLanes (c : Config) (cs : List Nat) : Lanes c := fun j =>
  match cs[j.val]? with
  | none => 0#c.W
  | some o =>
    match toLane c o with
    | .ok L => L
    | .error _ => 0#c.W  -- never reached by ENC_CHUNK, which has raised LaneWidthExceeded before (R100)

/-- The transpose (R103): word bit q*K + j is bit q of lane j. -/
def interleave (c : Config) (P : Lanes c) : EncodedWord c :=
  ofBits c.N fun b => (laneAt P (b % c.K)).getLsbD (b / c.K)

/-- ENC_CHUNK (R100): the count check first (R101), then the range check with the highest failing position (R106), then
the transposed word. The source's `encodeChunk`. -/
def encodeChunk (c : Config) (cs : List Nat) : Except Raised (EncodedWord c) :=
  if c.K < cs.length then .error ⟨.chunkTooLong, 0⟩
  else
    match (badPositions c cs).max? with
    | some j => .error ⟨.laneWidthExceeded, j⟩
    | none => .ok (interleave c (padLanes c cs))

/-- ENC_CHUNK as a response (R28, R100). -/
def encChunk (c : Config) (cs : List Nat) : Response c := encResponse (encodeChunk c cs)

/-- The meaning of ENC_CHUNK: the response of the presented chunk stands on the response bus (R44, R65, R100). An error is
that response, with no effect beside it (R160, R169). -/
def execEncChunk (n : Nat) (chs : List Nat) (s : State) : Host.Outcome State Fault Refusal :=
  .next (s.driveBus (encChunk Config.standard (presentedChunk Config.standard n chs)).bus)

end Sys2Proof.Machine
end

