-- ==== Sys2Proof/Machine/Block.lean ====
section
/-! DEFINITION. The block as a function of its request, at the abstract interface and at the ports, for every
configuration (10_state.md R28, R23). -/

namespace Sys2Proof.Machine

/-- `Block : Request -> Response` (R28). -/
def block (c : Config) : Request → Response c
  | .enc cs => encChunk c cs
  | .dec x => decChunk c x

/-- The response word of a request word: what the ports of a block built with `c` compute (R23, R60 to R65). -/
def respond (c : Config) (w : RequestWord c) : ResponseWord c := (block c (requestOf c (decode c w))).bus

end Sys2Proof.Machine
end

