-- ==== Sys2Proof/Machine/Dispatch.lean ====
section
/-! DEFINITION. One arm per operation (30_encoding.md R66). -/

namespace Sys2Proof.Machine

def exec (i : Instr) (s : State) : Host.Outcome State Fault Refusal :=
  match i with
  | .encChunk n chs => Sys2Proof.Machine.execEncChunk n chs s
  | .decChunk x => Sys2Proof.Machine.execDecChunk x s

end Sys2Proof.Machine
end

