-- ==== Sys2Proof/Machine/Step.lean ====
section
/-! DEFINITION. One step: the host presents its next request, the block answers it, the host reads the answer
(10_state.md R21, R28). One atomic step per operation, with no time attached (R183, R187). -/

namespace Sys2Proof.Machine

/-- One step. With a request pending, it is presented, run and its response read. With none, the host holds the bus as it
is and the block's outputs stay the function of that same request (R27, R44): nothing is read (log entry 2). -/
def step (s : State) : Host.Outcome State Fault Refusal :=
  match s.pending with
  | [] => exec (decode Config.standard s.req) s
  | w :: rest =>
    match exec (decode Config.standard w) (s.present w rest) with
    | .next t => .next t.readResponse
    | .fault r => .fault r
    | .refused r => .refused r

/-- The state with a table word as the host's next request: the block fetches nothing, the host presents (R21).
A word shorter than a request is filled up with zeros, a longer one cut to a request's length, which R60 leaves open (DESIGN
CHOICE, log entry 5). -/
def State.withFetchWord (s : State) (nbits w : Nat) : State :=
  { s with pending := requestOfTableWord Config.standard nbits w :: s.pending }

end Sys2Proof.Machine
end

