-- ==== Sys2Proof/Machine/Strings.lean ====
section
/-! DEFINITION. The host's string sequencing, the source's StringCodec (43_string.md): the pseudo-operations ENCSTR and
DECSEQ, their expansion into requests, and what the host makes of the responses. They are no encodings of the block (R68). -/

namespace Sys2Proof.Machine

/-- An error of a string operation: the error, the failing chunk or element, and the in-chunk index (R142, decision D19). -/
structure StringError where
  code : ErrCode
  chunk : Nat
  idx : Nat
  deriving DecidableEq, Repr

/-- The failing string position m*K + idx (R142). -/
def StringError.position (c : Config) (e : StringError) : Nat := e.chunk * c.K + e.idx

/-- M = ceil(L/K) chunks for L characters (R140). -/
def chunkCount (c : Config) (len : Nat) : Nat := (len + c.K - 1) / c.K

/-- Chunk m: the characters m*K .. min(m*K+K, L)-1 (R141). -/
def chunkAt (c : Config) (s : List Nat) (m : Nat) : List Nat := (s.drop (m * c.K)).take c.K

/-- The chunks of a string, in source order (R141). -/
def splitChunks (c : Config) (s : List Nat) : List (List Nat) :=
  (List.range (chunkCount c s.length)).map (chunkAt c s)

/-- The results of consecutive operations, numbered from `m`: all their values in order, or the first error in order and
nothing else (R142, R143). -/
def collectFrom {α : Type} (m : Nat) : List (Except Raised α) → Except StringError (List α)
  | [] => .ok []
  | .error r :: _ => .error ⟨r.code, m, r.idx⟩
  | .ok a :: rest => (collectFrom (m + 1) rest).map (List.cons a)

/-- ENCSTR (R140): one EncodedWord for each chunk, in source order, or the first failing chunk's error. -/
def encStr (c : Config) (s : List Nat) : Except StringError (List (EncodedWord c)) :=
  collectFrom 0 ((splitChunks c s).map (encodeChunk c))

/-- The decoded chunks one after another (R143). -/
def joinChunks {c : Config} (r : Except StringError (List (Decoded c))) : Except StringError (List Nat) :=
  r.map fun ds => (ds.map Decoded.chunk).flatten

/-- DECSEQ (R143): the decoded chunks concatenated in order, or the first malformed element's error. -/
def decSeq (c : Config) (xs : List Int) : Except StringError (List Nat) :=
  joinChunks (collectFrom 0 (xs.map (decodeChunk c)))

/-- `enc.chunk {o0, ..., o(m-1)}` as request fields: n = m, ch_j = o_j for j < min(m, K), every other ch_j = 0 (R67). -/
def chunkInstr (c : Config) (cs : List Nat) : Instr :=
  .encChunk cs.length ((List.range c.K).map fun j => cs.getD j 0)

/-- The expansion of `enc.str s`: one enc.chunk for each chunk, in order (R68, R140). -/
def encStrInstrs (c : Config) (s : List Nat) : List Instr := (splitChunks c s).map (chunkInstr c)

/-- The expansion of `dec.seq xs`: one dec.chunk for each element, in order (R68, R143). -/
def decSeqInstrs (xs : List Int) : List Instr := xs.map .decChunk

/-- What the host makes of the response words of an expanded ENCSTR (R68, R140, R142). -/
def hostEncStr (c : Config) (rs : List (ResponseWord c)) : Except StringError (List (EncodedWord c)) :=
  collectFrom 0 (rs.map (readWord c))

/-- What the host makes of the response words of an expanded DECSEQ (R68, R143). -/
def hostDecSeq (c : Config) (rs : List (ResponseWord c)) : Except StringError (List Nat) :=
  joinChunks (collectFrom 0 (rs.map (readDecoded c)))

/-- `strip(cs)` of R126: the trailing zero ordinals removed, and [0] when that leaves nothing. -/
def strip (cs : List Nat) : List Nat :=
  match cs.rdropWhile (fun o => o == 0) with
  | [] => [0]
  | os => os

end Sys2Proof.Machine
end

