-- ==== Sys2Proof/Machine/Assembler.lean ====
section
/-! DEFINITION. The textual form of programs (30_encoding.md R67, R68; decision D18), as lists of characters: one
operation a line, `;` starting a comment. It has no effect on the block: it says which request words a program is. -/

namespace Sys2Proof.Machine

/-- One line of a program (R67). -/
inductive AsmLine where
  /-- `enc.chunk {o0, ...}` -/
  | encChunk (os : List Nat)
  /-- `dec.chunk x` -/
  | decChunk (x : Int)
  /-- `enc.str "..."`, pseudo-operation ENCSTR -/
  | encStr (s : List Nat)
  /-- `dec.seq {x0, ...}`, pseudo-operation DECSEQ -/
  | decSeq (xs : List Int)
  deriving DecidableEq, Repr

/-- The requests a line expands to (R68). -/
def AsmLine.instrs (c : Config) : AsmLine → List Instr
  | .encChunk os => [chunkInstr c os]
  | .decChunk x => [.decChunk x]
  | .encStr s => encStrInstrs c s
  | .decSeq xs => decSeqInstrs xs

/-- A line whose every request can be presented at the ports (R23, R67). -/
def AsmLine.fits (c : Config) (l : AsmLine) : Bool := (l.instrs c).all (Instr.wf c)

/-- The request words of a line, or none where it cannot be presented at the ports (R61, R62, R67). -/
def AsmLine.words (c : Config) (l : AsmLine) : Option (List (RequestWord c)) :=
  if l.fits c then some ((l.instrs c).map (encode c)) else none

/-- The parts a line is made of. -/
inductive Token where
  | name (cs : List Char)
  | literal (v : Int)
  | text (os : List Nat)
  | leftBrace
  | rightBrace
  | comma
  deriving DecidableEq, Repr

/-- The value of a hexadecimal digit. -/
def hexDigit (ch : Char) : Option Nat :=
  if '0' ≤ ch ∧ ch ≤ '9' then some (ch.toNat - 0x30)
  else if 'a' ≤ ch ∧ ch ≤ 'f' then some (ch.toNat - 0x61 + 10)
  else if 'A' ≤ ch ∧ ch ≤ 'F' then some (ch.toNat - 0x41 + 10)
  else none

/-- The value of a decimal digit. -/
def decDigit (ch : Char) : Option Nat := if '0' ≤ ch ∧ ch ≤ '9' then some (ch.toNat - 0x30) else none

/-- Reads as many digits as there are, at least one, in the given base. -/
def readDigits (base : Nat) (digit : Char → Option Nat) : Option Nat → List Char → Option (Nat × List Char)
  | acc, [] => acc.map fun v => (v, [])
  | acc, ch :: rest =>
    match digit ch with
    | some d => readDigits base digit (some (acc.getD 0 * base + d)) rest
    | none => acc.map fun v => (v, ch :: rest)

/-- An unsigned literal: hexadecimal after `0x`, decimal otherwise (R67). -/
def readNatural : List Char → Option (Nat × List Char)
  | '0' :: 'x' :: rest => readDigits 16 hexDigit none rest
  | cs => readDigits 10 decDigit none cs

/-- One character of a literal or string with its escapes `\0` and `\xHH` (R67): its ordinal. -/
def readCharacter : List Char → Option (Nat × List Char)
  | [] => none
  | '\\' :: '0' :: rest => some (0, rest)
  | '\\' :: 'x' :: h :: l :: rest =>
    match hexDigit h, hexDigit l with
    | some a, some b => some (16 * a + b, rest)
    | _, _ => none
  | '\\' :: _ => none
  | ch :: rest => some (ch.toNat, rest)

/-- The characters of a string literal up to its closing quote (code 34). -/
def readString : Nat → List Char → Option (List Nat × List Char)
  | 0, _ => none
  | _ + 1, [] => none
  | fuel + 1, ch :: rest =>
    if ch.toNat = 34 then some ([], rest)
    else
      match readCharacter (ch :: rest) with
      | none => none
      | some (o, more) => (readString fuel more).map fun r => (o :: r.1, r.2)

/-- A character of an operation's name: a letter or the dot. -/
def isNameChar (ch : Char) : Bool := ch.isAlpha || ch == '.'

/-- The longest name at the front, and the rest. -/
def readName : List Char → List Char × List Char
  | [] => ([], [])
  | ch :: rest => if isNameChar ch then (ch :: (readName rest).1, (readName rest).2) else ([], ch :: rest)

/-- One token of a non-empty text that does not start with a blank (code 123 and 125 are the braces, 39 and 34 the
quotes). -/
def readToken (ch : Char) (rest : List Char) : Option (Token × List Char) :=
  if ch.toNat = 123 then some (.leftBrace, rest)
  else if ch.toNat = 125 then some (.rightBrace, rest)
  else if ch = ',' then some (.comma, rest)
  else if ch.toNat = 34 then (readString (rest.length + 1) rest).map fun r => (.text r.1, r.2)
  else if ch.toNat = 39 then
    match readCharacter rest with
    | some (o, q :: more) => if q.toNat = 39 then some (.literal o, more) else none
    | _ => none
  else if ch = '-' then (readDigits 10 decDigit none rest).map fun r => (.literal (-(r.1 : Int)), r.2)
  else if (decDigit ch).isSome then (readNatural (ch :: rest)).map fun r => (.literal r.1, r.2)
  else if isNameChar ch then some (.name (readName (ch :: rest)).1, (readName (ch :: rest)).2)
  else none

/-- The tokens of a line: blanks divide them, and `;` outside a literal ends the line (R67). -/
def tokenize : Nat → List Char → Option (List Token)
  | _, [] => some []
  | 0, _ :: _ => none
  | fuel + 1, ch :: rest =>
    if ch = ';' then some []
    else if ch.isWhitespace then tokenize fuel rest
    else
      match readToken ch rest with
      | none => none
      | some (t, more) => (tokenize fuel more).map fun ts => t :: ts

/-- Literals divided by commas and closed by the brace that ends the line. -/
def readItems : List Token → Option (List Int)
  | [.literal v, .rightBrace] => some [v]
  | .literal v :: .comma :: rest => (readItems rest).map fun vs => v :: vs
  | _ => none

/-- The items of a braced list that may be empty. -/
def readBraced : List Token → Option (List Int)
  | [.leftBrace, .rightBrace] => some []
  | .leftBrace :: rest => readItems rest
  | _ => none

/-- Ordinals are not negative (00_scope.md R10). -/
def ordinalsOf (vs : List Int) : Option (List Nat) :=
  if vs.all fun v => decide (0 ≤ v) then some (vs.map Int.toNat) else none

/-- The operation that a line's tokens spell (R67). -/
def lineOfTokens (name : List Char) (ts : List Token) : Option AsmLine :=
  if name = ['e', 'n', 'c', '.', 'c', 'h', 'u', 'n', 'k'] then
    match readBraced ts with
    | some vs => (ordinalsOf vs).map .encChunk
    | none => none
  else if name = ['d', 'e', 'c', '.', 'c', 'h', 'u', 'n', 'k'] then
    match ts with
    | [.literal x] => some (.decChunk x)
    | _ => none
  else if name = ['e', 'n', 'c', '.', 's', 't', 'r'] then
    match ts with
    | [.text s] => some (.encStr s)
    | _ => none
  else if name = ['d', 'e', 'c', '.', 's', 'e', 'q'] then (readBraced ts).map .decSeq
  else none

/-- One line of text: no operation (blank, or a comment alone), one operation, or none where it is no line of R67. -/
def parseLine (line : List Char) : Option (List AsmLine) :=
  match tokenize line.length line with
  | none => none
  | some [] => some []
  | some (.name n :: ts) => (lineOfTokens n ts).map fun l => [l]
  | some _ => none

/-- The lines of a text. -/
def splitLines : List Char → List (List Char)
  | [] => [[]]
  | ch :: rest =>
    if ch = '\n' then [] :: splitLines rest
    else
      match splitLines rest with
      | [] => [[ch]]
      | l :: ls => (ch :: l) :: ls

/-- All of a list's values, or none where one is missing. -/
def allOf {α : Type} : List (Option α) → Option (List α)
  | [] => some []
  | none :: _ => none
  | some a :: rest => (allOf rest).map fun as => a :: as

/-- A program's operations in order (R67). -/
def parseProgram (text : List Char) : Option (List AsmLine) :=
  (allOf ((splitLines text).map parseLine)).map List.flatten

/-- A program's request words in order (R67, R68), or none where it is no program or cannot be presented. Every line gives its
words: an expansion written out below its pseudo-operation, as 95_test_vectors.md writes P1, P3 and P4, is assembled once more
(DESIGN CHOICE, log entry 21). -/
def assemble (c : Config) (text : List Char) : Option (List (RequestWord c)) :=
  match parseProgram text with
  | none => none
  | some ls => (allOf (ls.map (AsmLine.words c))).map List.flatten

end Sys2Proof.Machine
end

