-- ==== Sys2Proof/Machine/Netlist.lean ====
section
/-! DEFINITION. The block as the logic the rules name, bit by bit from request word to response word: wiring, per-lane
gates, OR-reductions, one comparison and two priority encoders (41_chunk_encode.md R102, R108; 40_lane.md R81;
42_chunk_decode.md R121 to R123; 30_encoding.md R61 to R64). It names no operation of the abstract interface, so that the
two descriptions can be proved equal. -/

namespace Sys2Proof.Machine

/-- A priority encoder over the inputs f 0, ..., f (n-1): the highest set one, or 0 when none is set. -/
def priorityEncode (f : Nat → Bool) : Nat → Nat
  | 0 => 0
  | n + 1 => if f n then n else priorityEncode f n

/-- An OR-reduction of the inputs f lo, ..., f (lo+len-1). -/
def orReduce (f : Nat → Bool) (lo len : Nat) : Bool := (List.range len).any fun i => f (lo + i)

/-- The count input: request bits [CNTW:1] (R61). -/
def netCount (c : Config) (w : RequestWord c) : Nat := (w.extractLsb' 1 c.CNTW).toNat

/-- Bit q of the ordinal input ch_j (R61). -/
def netOrdinalBit (c : Config) (w : RequestWord c) (j q : Nat) : Bool := w.getLsbD (c.CNTW + j * c.OW + 1 + q)

/-- Bit b of the decode operand din (R62). -/
def netOperandBit (c : Config) (w : RequestWord c) (b : Nat) : Bool := w.getLsbD (1 + b)

/-- The thermometer decode of n: lane j passes when j < n (R102). -/
def netPresent (c : Config) (w : RequestWord c) (j : Nat) : Bool := decide (j < netCount c w)

/-- The comparison n > K (R108). -/
def netTooLong (c : Config) (w : RequestWord c) : Bool := decide (c.K < netCount c w)

/-- Lane j is present and its ordinal has a high bit set: the OR-reduction of ch_j[OW-1:W] (R81, R108). -/
def netOver (c : Config) (w : RequestWord c) (j : Nat) : Bool :=
  netPresent c w j && orReduce (netOrdinalBit c w j) c.W (c.OW - c.W)

/-- Some present ordinal is out of range. -/
def netAnyOver (c : Config) (w : RequestWord c) : Bool := orReduce (netOver c w) 0 c.K

/-- Bit b of an encoded word: the ordinal's bit through the lane's gate (R108). -/
def netEncodeBit (c : Config) (w : RequestWord c) (b : Nat) : Bool :=
  netOrdinalBit c w (b % c.K) (b / c.K) && netPresent c w (b % c.K)

/-- The operand is out of range: the OR-reduction of din[XW-1:N] (R121). -/
def netMalformed (c : Config) (w : RequestWord c) : Bool := orReduce (netOperandBit c w) c.N (c.XW - c.N)

/-- Bit q of decoded lane j: wiring (R122). -/
def netLaneBit (c : Config) (w : RequestWord c) (j q : Nat) : Bool := netOperandBit c w (q * c.K + j)

/-- The strip: the OR-reductions of the lanes P_1 .. P_{K-1} into a priority encoder, plus one (R123). -/
def netKept (c : Config) (w : RequestWord c) : Nat :=
  priorityEncode (fun j => decide (1 ≤ j) && orReduce (netLaneBit c w j) 0 c.W) c.K + 1

/-- The err, aux and data outputs of ENC_CHUNK, gated by the two checks (R108, R165, R166). -/
def netEncode (c : Config) (w : RequestWord c) : Nat × Nat × (Nat → Bool) :=
  if netTooLong c w then (1, 0, fun _ => false)
  else if netAnyOver c w then (2, priorityEncode (netOver c w) c.K, fun _ => false)
  else (0, 0, netEncodeBit c w)

/-- The err, aux and data outputs of DEC_CHUNK, gated by its check (R121, R125, R165, R166). -/
def netDecode (c : Config) (w : RequestWord c) : Nat × Nat × (Nat → Bool) :=
  if netMalformed c w then (3, 0, fun _ => false)
  else (0, netKept c w, fun b => netLaneBit c w (b / c.W) (b % c.W))

/-- The response bus from its three fields: err at [1:0], aux at [CNTW+1:2], data above (R63). -/
def netBus (c : Config) (out : Nat × Nat × (Nat → Bool)) : ResponseWord c :=
  ofBits c.RSW fun b =>
    if b < 2 then out.1.testBit b
    else if b < c.CNTW + 2 then out.2.1.testBit (b - 2)
    else out.2.2 (b - (c.CNTW + 2))

/-- The whole netlist: the opcode bit selects which unit drives the response bus (R60, R66). -/
def netlist (c : Config) (w : RequestWord c) : ResponseWord c :=
  netBus c (if w.getLsbD 0 then netDecode c w else netEncode c w)

end Sys2Proof.Machine
end

