-- ==== Sys2Proof/Machine/SourceText.lean ====
section
/-! DEFINITION. The source's own algorithm over bit text, as the rules quote it (00_scope.md R9; 41_chunk_encode.md R102,
R104; 42_chunk_decode.md R122 to R124): lanes are lists of bits, most significant first, numbered by the source's lane
index. It is kept apart from the formulas the instructions run, so that the two can be proved equal. -/

namespace Sys2Proof.Machine

/-- The text of a value in `len` bits, most significant bit first: string position t is value bit len-1-t (R9). -/
def textOf (len v : Nat) : List Bool := (List.range len).map fun t => v.testBit (len - 1 - t)

/-- A bit text parsed as an unsigned integer (R104). -/
def valueOfText (bits : List Bool) : Nat := bits.foldl (fun v b => 2 * v + b.toNat) 0

/-- Steps 2 and 3 of the source's encode: reverse the characters, map each to its lane, left-pad with zero lanes (R102). -/
def sourceLanes (c : Config) (cs : List Nat) : List (List Bool) :=
  List.replicate (c.K - cs.length) (List.replicate c.W false) ++ cs.reverse.map (textOf c.W)

/-- Step 4: bit p of every lane in lane order, for p = 0, 1, ... in turn (R104). -/
def sourceColumns (c : Config) (lanes : List (List Bool)) : List Bool :=
  (List.range c.W).flatMap fun p => lanes.map fun lane => lane.getD p false

/-- The source's encode of a chunk that has passed its checks: the EncodedWord as an integer. -/
def sourceEncode (c : Config) (cs : List Nat) : Nat := valueOfText (sourceColumns c (sourceLanes c cs))

/-- Step 2 of the source's decode: lane i is every K-th bit of the word's text from offset i (R122). -/
def sourceSplit (c : Config) (text : List Bool) : List (List Bool) :=
  (List.range c.K).map fun i => (List.range c.W).map fun p => text.getD (p * c.K + i) false

/-- Step 3: while the front lane is all zero and is not the last one left, remove it (R123). -/
def sourceStrip : List (List Bool) → List (List Bool)
  | [] => []
  | [lane] => [lane]
  | lane :: next :: rest => if lane.all (fun b => !b) then sourceStrip (next :: rest) else lane :: next :: rest

/-- The source's decode of a word in its domain: unscramble, strip, reverse, and read each lane as an ordinal (R122 to
R124). -/
def sourceDecode (c : Config) (word : Nat) : List Nat :=
  ((sourceStrip (sourceSplit c (textOf c.N word))).reverse).map valueOfText

end Sys2Proof.Machine
end

