-- ==== Sys2Proof/Safety.lean ====
section
/-! DEFINITION. What claims call a good state and a safe step. -/

namespace Sys2Proof

open Machine

/-- The response bus is the function of the request bus: R27's "a function of its current inputs at all times". -/
abbrev Safety.Settled (s : State) : Prop := s.resp = respond Config.standard s.req

/-- A response word obeys the table of R165 and the zero drive of R166: an error has data 0; ChunkTooLong and
MalformedWord have aux 0; LaneWidthExceeded names a source position; a success counts at most K characters. -/
abbrev Safety.LegalResponse (c : Config) (r : ResponseWord c) : Prop :=
  (errOf c r = 0 → (auxOf c r).toNat ≤ c.K) ∧ (errOf c r = 1 → auxOf c r = 0) ∧
    (errOf c r = 2 → (auxOf c r).toNat < c.K) ∧ (errOf c r = 3 → auxOf c r = 0) ∧ (errOf c r ≠ 0 → dataOf c r = 0)

/-- The invariant of the machine: the outputs are settled (R27), and the response bus and every response the host has read
are legal (R165, R166). -/
abbrev Safety.Inv (s : State) : Prop :=
  Safety.Settled s ∧ Safety.LegalResponse Config.standard s.resp ∧
    ∀ r ∈ s.responses, Safety.LegalResponse Config.standard r

/-- A step that goes on: neither a fault nor a refusal. -/
abbrev Safety.GoesOn (s : State) : Prop := ∃ t, step s = .next t

end Sys2Proof
end

