-- ==== Sys2Proof/Certificates/Slice0/Obligations.lean ====
section
/-! DEFINITION. The statements for the provers. Those about lanes, chunks and strings hold for every K and W; those about
`exec`, `step` and a run are about the machine at the default K = 4, W = 8. -/

open Sys2Proof Sys2Proof.Machine

/-! ### The machine: reset, steps, frames -/

/-- After reset nothing is pending and nothing was read, and the invariant holds. The spec has no reset value (R27, R180):
the zero request bus is the model's choice (log entry 3); that the response bus is the function of it is R27. -/
def Obligations.ResetMeetsInvariant : Prop :=
  Safety.Inv State.reset ∧ State.reset.pending = [] ∧ State.reset.responses = [] ∧ State.reset.req = 0

/-- Every step keeps the invariant: the outputs stay a function of the inputs (R27), and every response, on the bus or read,
obeys the tables of R165 and R166. -/
def Obligations.StepKeepsInvariant : Prop :=
  ∀ s t : State, Safety.Inv s → step s = .next t → Safety.Inv t

/-- No state stops: every request gets its response (R28, R160). -/
def Obligations.EveryStepGoesOn : Prop := ∀ s : State, Safety.GoesOn s

/-- A step presents the next request, runs what it decodes to, and reads the response; the same of a request the host
encoded; with none pending it runs the request that is held (the model's host, log entry 2). -/
def Obligations.StepRunsPresentedRequest : Prop :=
  (∀ (s t : State) (w : RequestWord Config.standard) (rest : List (RequestWord Config.standard)),
    s.pending = w :: rest → exec (decode Config.standard w) { s with req := w, pending := rest } = .next t →
    step s = .next { t with responses := t.responses ++ [t.resp] }) ∧
  (∀ (s t : State) (i : Instr) (rest : List (RequestWord Config.standard)), i.wf Config.standard = true →
    s.pending = encode Config.standard i :: rest →
    exec i { s with req := encode Config.standard i, pending := rest } = .next t →
    step s = .next { t with responses := t.responses ++ [t.resp] }) ∧
  (∀ s : State, s.pending = [] → step s = exec (decode Config.standard s.req) s)

/-- A table word placed for the next step is the one that step runs, and the rest of the state is as it was. That the word
joins the host's queue, and that the host reads the response in that step, is the model's choice (log entries 2 and 5). -/
def Obligations.FetchWordIsRunNext : Prop :=
  ∀ (s t : State) (w : Nat) (i : Instr), w < 2 ^ 88 → decodeTableWord 88 w = some i →
    exec i { s with req := BitVec.ofNat _ w } = .next t →
    step (s.withFetchWord 88 w) = .next { t with responses := t.responses ++ [t.resp] }

/-- An operation changes the response bus and nothing else (R20, R44), and its response depends on the request alone,
whatever came before (R25, R28). -/
def Obligations.OperationChangesOnlyItsResponse : Prop :=
  ∀ (i : Instr) (s t : State), exec i s = .next t →
    t.pending = s.pending ∧ t.req = s.req ∧ t.responses = s.responses ∧
    ∀ s' t' : State, exec i s' = .next t' → t'.resp = t.resp

/-- Holding the request gives the same response again: with none pending a second step changes nothing, and where the
outputs are settled the first changes nothing either (R27, R44; that the host holds the request is the model's, log entry 2). -/
def Obligations.HeldRequestIsIdempotent : Prop :=
  ∀ s t : State, s.pending = [] → step s = .next t → step t = .next t ∧ (Safety.Settled s → t = s)

/-- Run over any queue of requests, the machine gives each request exactly the response it has alone, in order, whatever the
requests around it were, errors among them (R25, R45, R160). The queue, its emptying and one read a step are the model's
choice (log entry 2). -/
def Obligations.QueueGivesEachRequestItsOwnResponse : Prop :=
  ∀ s : State, ∃ t : State, Host.Core.run core s.pending.length s = .next t ∧ t.pending = [] ∧
    t.responses = s.responses ++ s.pending.map (respond Config.standard) ∧
    t.req = s.pending.getLastD s.req

/-! ### ENC_CHUNK and DEC_CHUNK at the ports of the default block -/

/-- ENC_CHUNK completes on at most 4 characters in range: err 0, aux 0, and data bit q*4+j is bit q of ch_j gated by j < n
(R108), with every other part of the state as it was. -/
def Obligations.EncChunkCompletes : Prop :=
  ∀ (s : State) (n : Nat) (chs : List Nat), Instr.wf Config.standard (.encChunk n chs) = true → n ≤ 4 →
    (∀ j < n, chs.getD j 0 < 256) →
    ∃ r, exec (.encChunk n chs) s = .next { s with resp := r } ∧
      errOf Config.standard r = 0 ∧ auxOf Config.standard r = 0 ∧
      ∀ q < 8, ∀ j < 4, (dataOf Config.standard r).getLsbD (q * 4 + j) = (decide (j < n) && (chs.getD j 0).testBit q)

/-- ENC_CHUNK of more than 4 characters answers ChunkTooLong, whatever the ordinals are (R101, R162, R167). -/
def Obligations.EncChunkAnswersTooLong : Prop :=
  ∀ (s : State) (n : Nat) (chs : List Nat), Instr.wf Config.standard (.encChunk n chs) = true → 4 < n →
    ∃ r, exec (.encChunk n chs) s = .next { s with resp := r } ∧
      errOf Config.standard r = 1 ∧ auxOf Config.standard r = 0 ∧ dataOf Config.standard r = 0

/-- ENC_CHUNK with an ordinal of 256 or more among the present ones answers LaneWidthExceeded; that aux names the highest
such position is the spec's own choice (R106, D8; log entry 6), as is the zero data (R166, D7). -/
def Obligations.EncChunkAnswersLaneWidthExceeded : Prop :=
  ∀ (s : State) (n j : Nat) (chs : List Nat), Instr.wf Config.standard (.encChunk n chs) = true → n ≤ 4 →
    j < n → 256 ≤ chs.getD j 0 → (∀ k < n, j < k → chs.getD k 0 < 256) →
    ∃ r, exec (.encChunk n chs) s = .next { s with resp := r } ∧
      errOf Config.standard r = 2 ∧ (auxOf Config.standard r).toNat = j ∧ dataOf Config.standard r = 0

/-- DEC_CHUNK completes on 0 <= x < 2^32: err 0, data lane j (linear packing) is the lane of position j, and aux is one more
than the highest position with a non-zero lane, never less than 1 (R120, R122, R123, R64). -/
def Obligations.DecChunkCompletes : Prop :=
  ∀ (s : State) (x : Int), Instr.wf Config.standard (.decChunk x) = true → 0 ≤ x → x < 2 ^ 32 →
    ∃ r, exec (.decChunk x) s = .next { s with resp := r } ∧ errOf Config.standard r = 0 ∧
      (∀ q < 8, ∀ j < 4, (dataOf Config.standard r).getLsbD (j * 8 + q) = x.toNat.testBit (q * 4 + j)) ∧
      1 ≤ (auxOf Config.standard r).toNat ∧ (auxOf Config.standard r).toNat ≤ 4 ∧
      (∀ j < 4, (auxOf Config.standard r).toNat ≤ j → ∀ q < 8, x.toNat.testBit (q * 4 + j) = false) ∧
      (1 < (auxOf Config.standard r).toNat →
        ∃ q < 8, x.toNat.testBit (q * 4 + ((auxOf Config.standard r).toNat - 1)) = true)

/-- DEC_CHUNK of a negative operand or one of 2^32 or more answers MalformedWord (R121, R163). -/
def Obligations.DecChunkAnswersMalformed : Prop :=
  ∀ (s : State) (x : Int), Instr.wf Config.standard (.decChunk x) = true → (x < 0 ∨ 2 ^ 32 ≤ x) →
    ∃ r, exec (.decChunk x) s = .next { s with resp := r } ∧
      errOf Config.standard r = 3 ∧ auxOf Config.standard r = 0 ∧ dataOf Config.standard r = 0

/-! ### Request and response words -/

/-- Decoding an encoded request gives it back, for every configuration and every operand the fields admit. -/
def Obligations.DecodeInvertsEncode : Prop :=
  ∀ c : Config, c.WF → ∀ i : Instr, i.wf c = true → decode c (encode c i) = i

/-- Every request word is exactly one operation, chosen by bit 0, that the ports can present (R66); encoding it again, with
the ignored bits zero (log entry 20), asks for the same response. -/
def Obligations.EveryRequestWordIsOneOperation : Prop :=
  ∀ (c : Config) (w : RequestWord c), c.WF →
    (decode c w).wf c = true ∧ ((∃ x, decode c w = .decChunk x) ↔ w.getLsbD 0 = true) ∧
    ((∃ n chs, decode c w = .encChunk n chs) ↔ w.getLsbD 0 = false) ∧
    respond c (encode c (decode c w)) = respond c w

/-- The bits of an encoded request stand where R61 and R62 put the fields. That the encoder leaves every ignored bit 0 is the
model's choice (log entry 20): the rules give those bits no effect and no value, and the words of 95_test_vectors.md have
them 0. -/
def Obligations.EncodedFieldsStandInTheirPlaces : Prop :=
  (∀ (c : Config) (n : Nat) (chs : List Nat), c.WF → Instr.wf c (.encChunk n chs) = true →
    (encode c (.encChunk n chs)).getLsbD 0 = false ∧
    (∀ k < c.CNTW, (encode c (.encChunk n chs)).getLsbD (1 + k) = n.testBit k) ∧
    (∀ j < c.K, ∀ k < c.OW,
      (encode c (.encChunk n chs)).getLsbD (c.CNTW + j * c.OW + 1 + k) = (chs.getD j 0).testBit k) ∧
    ∀ b, c.CNTW + c.K * c.OW + 1 ≤ b → (encode c (.encChunk n chs)).getLsbD b = false) ∧
  (∀ (c : Config) (x : Int), c.WF → Instr.wf c (.decChunk x) = true →
    (encode c (.decChunk x)).getLsbD 0 = true ∧
    (∀ k < c.XW, (encode c (.decChunk x)).getLsbD (1 + k) = (BitVec.ofInt c.XW x).getLsbD k) ∧
    ∀ b, c.XW + 1 ≤ b → (encode c (.decChunk x)).getLsbD b = false)

/-- Ignored bits have no effect: two ENC words with the same n and the same ch_j for j < min(n, K), or two DEC words with the
same din, have the same response (R61, R62; decision D9). -/
def Obligations.IgnoredBitsHaveNoEffect : Prop :=
  ∀ (c : Config) (v w : RequestWord c),
    (opField c v = false → opField c w = false → countField c v = countField c w →
      (∀ j < min (countField c w) c.K, ordinalField c v j = ordinalField c w j) → respond c v = respond c w) ∧
    (opField c v = true → opField c w = true → operandField c v = operandField c w → respond c v = respond c w)

/-- Some request words of 95_test_vectors.md decode to the operations their rows name (V-E9, V-E21, V-D12, V-D18). -/
def Obligations.SpecRequestWordsDecode : Prop :=
  decodeTableWord 88 0x0002080010800086000448 = some (.encChunk 4 [68, 67, 66, 65]) ∧
  decodeTableWord 88 0x0000200000C0000400001A = some (.encChunk 5 [1, 2, 3, 4]) ∧
  decodeTableWord 88 0x000000000000002468ACF1 = some (.decChunk 0x12345678) ∧
  decodeTableWord 88 0x000001FFFFFFFFFFFFFFFF = some (.decChunk (-1))

/-- The fields are wide enough for every error that can occur: the count field is the narrowest that holds K+1, the operand
field holds -1 and 2^N, and the ordinal field holds 2^W when OW > W (R7; decisions D3 to D5; at OW = W LaneWidthExceeded
cannot occur, R81, and nothing is claimed of it here); and the default block's buses are 88 and 37 bits (R60, R63). -/
def Obligations.FieldsHoldEveryErrorThatCanOccur : Prop :=
  (∀ c : Config, c.WF → c.K + 1 < 2 ^ c.CNTW ∧ 2 ^ (c.CNTW - 1) ≤ c.K + 1 ∧
    Instr.wf c (.decChunk (-1)) = true ∧ Instr.wf c (.decChunk (2 ^ c.N)) = true ∧
    (c.W < c.OW → ordinalsFit c [2 ^ c.W] = true)) ∧
  Config.standard.CNTW = 3 ∧ Config.standard.N = 32 ∧ Config.standard.RQW = 88 ∧ Config.standard.RSW = 37

/-- A line of a program is assembled into one request word for each request it expands to, exactly when all of them fit the
ports, and the words decode to those requests (R67, R68; the textual form is the spec's own choice D18). That a line with a
request that does not fit is not assembled is the model's choice (log entry 14). -/
def Obligations.AssembledWordsDecodeToTheLine : Prop :=
  ∀ (c : Config) (l : AsmLine), c.WF →
    (l.fits c = true ↔ ∃ ws, l.words c = some ws) ∧
    (∀ ws, l.words c = some ws → ws.map (decode c) = l.instrs c) ∧
    (∀ str ws, l = .encStr str → l.words c = some ws → ws.length = (str.length + c.K - 1) / c.K)

/-- A chunk written `enc.chunk {...}` presents exactly that chunk when it has at most K characters, presents a request whose
answer is ChunkTooLong when it has more, and can be presented when its count and ordinals fit (R23, R65, R67). -/
def Obligations.ChunkRequestPresentsItsChunk : Prop :=
  ∀ (c : Config) (cs : List Nat),
    (cs.length ≤ c.K → requestOf c (chunkInstr c cs) = .enc cs) ∧
    (c.K < cs.length → block c (requestOf c (chunkInstr c cs)) = .error .chunkTooLong 0) ∧
    (cs.length < 2 ^ c.CNTW → (∀ o ∈ cs, o < 2 ^ c.OW) → (chunkInstr c cs).wf c = true)

/-- The host reads from the response bus what the operation gave: the word, the count and lanes, or the error and index,
for every request (R23, R63 to R65, R165). -/
def Obligations.ResponseBusCarriesTheResult : Prop :=
  ∀ c : Config, c.WF →
    (∀ cs : List Nat, readWord c (block c (.enc cs)).bus = encodeChunk c cs) ∧
    (∀ x : Int, readDecoded c (block c (.dec x)).bus = decodeChunk c x)

/-- Linear packing puts bit q of lane j at bit j*W + q and loses nothing in either direction (R42, R64; decision D10). -/
def Obligations.LinearPackingIsExact : Prop :=
  ∀ c : Config,
    (∀ (P : Lanes c) (j : Fin c.K), ∀ q < c.W, (linearPack c P).getLsbD (j.val * c.W + q) = (P j).getLsbD q) ∧
    (∀ P : Lanes c, linearUnpack c (linearPack c P) = P) ∧ ∀ v : EncodedWord c, linearPack c (linearUnpack c v) = v

/-- The logic of R81, R102, R108 and R121 to R123, bit by bit on the buses, computes the block's response to every request
word, in every configuration. The netlist is the model's own reading of those rules (DEDUCED, log entry 18). -/
def Obligations.NetlistComputesTheBlock : Prop :=
  ∀ (c : Config) (w : RequestWord c), c.WF → netlist c w = respond c w

/-! ### The lane unit -/

/-- R80 and R82: an ordinal below 2^W has the lane of that value, one of 2^W or more is rejected and never truncated. -/
def Obligations.ToLaneAcceptsExactlyWhatFits : Prop :=
  ∀ (c : Config) (o : Nat),
    (o < 2 ^ c.W → ∃ L, toLane c o = .ok L ∧ L.toNat = o ∧ ∀ q < c.W, L.getLsbD q = o.testBit q) ∧
    (2 ^ c.W ≤ o → toLane c o = .error .laneWidthExceeded) ∧
    toLane c 0 = .ok 0 ∧ toLane c (2 ^ c.W - 1) = .ok (BitVec.allOnes c.W)

/-- The two lane functions are inverse to each other on their domains (R83, R84). -/
def Obligations.LanesAndOrdinalsAreInverse : Prop :=
  ∀ c : Config, (∀ (o : Nat) (L : Lane c.W), toLane c o = .ok L ↔ o = fromLane c L) ∧
    ∀ L : Lane c.W, fromLane c L < 2 ^ c.W

/-- R41: bit q of a lane and bit b of a word have weights 2^q and 2^b. -/
def Obligations.BitsHaveTheirWeights : Prop :=
  ∀ c : Config, (∀ L : Lane c.W, fromLane c L = ∑ q ∈ Finset.range c.W, (L.getLsbD q).toNat * 2 ^ q) ∧
    ∀ w : EncodedWord c, w.toNat = ∑ b ∈ Finset.range c.N, (w.getLsbD b).toNat * 2 ^ b

/-- At the port, an ordinal is out of range exactly when some bit of ch_j[OW-1:W] is set, and never when OW = W (R81). -/
def Obligations.OrdinalRangeTestIsItsHighBits : Prop :=
  ∀ (c : Config) (ch : BitVec c.OW), c.WF →
    (ordinalHighBitSet c ch = true ↔ toLane c ch.toNat = .error .laneWidthExceeded) ∧
    (c.OW = c.W → ordinalHighBitSet c ch = false)

/-! ### ENC_CHUNK at the abstract interface -/

/-- R101: more than K characters are ChunkTooLong whatever the ordinals, before any is range-checked; through the string
sequencing that error cannot occur. -/
def Obligations.CountCheckComesFirst : Prop :=
  (∀ (c : Config) (cs : List Nat), c.K < cs.length → block c (.enc cs) = .error .chunkTooLong 0) ∧
  ∀ (c : Config) (s : List Nat) (e : StringError), c.WF → encStr c s = .error e → e.code ≠ .chunkTooLong

/-- The padding stage: P_j is the lane of c_j for j < n and zero from n on, and the source's reversed and left-padded list
has P_{K-1-i} as its lane i (R102). The source's list is the model's own writing of the steps that R102 quotes (DEDUCED, log
entry 18). -/
def Obligations.PaddingPutsCharactersInTheirLanes : Prop :=
  ∀ (c : Config) (cs : List Nat), cs.length ≤ c.K → (∀ o ∈ cs, o < 2 ^ c.W) →
    (∀ j : Fin c.K, (∀ h : j.val < cs.length, toLane c cs[j.val] = .ok (padLanes c cs j)) ∧
      (cs.length ≤ j.val → padLanes c cs j = 0)) ∧
    sourceLanes c cs = (List.range c.K).map fun i => textOf c.W (laneAt (padLanes c cs) (c.K - 1 - i)).toNat

/-- R103: word bit q*K + j is bit q of lane j; in the source's text numbering, output position p*K + i is lane i's bit p. -/
def Obligations.TransposeMovesEachBit : Prop :=
  ∀ (c : Config) (P : Lanes c),
    (∀ q < c.W, ∀ j : Fin c.K, (interleave c P).getLsbD (q * c.K + j.val) = (P j).getLsbD q) ∧
    ∀ p < c.W, ∀ i < c.K,
      (interleave c P).getLsbD (c.N - 1 - (p * c.K + i)) = (laneAt P (c.K - 1 - i)).getLsbD (c.W - 1 - p)

/-- R105: the transpose is a bijection from K-tuples of lanes to words, and the de-interleave of R122 is its inverse. It is a
permutation of bit positions: (q, j) -> q*K + j is one-to-one from the pairs below W and K onto the positions below N, and
the one word bit that holds bit q of lane j, whatever the lanes are, is bit q*K + j. -/
def Obligations.TransposeIsABijection : Prop :=
  ∀ c : Config, Function.Bijective (interleave c) ∧
    (∀ P : Lanes c, deinterleave c (interleave c P) = P) ∧
    (∀ w : EncodedWord c, interleave c (deinterleave c w) = w) ∧
    (∀ b < c.N, ∃! qj : Nat × Nat, qj.1 < c.W ∧ qj.2 < c.K ∧ qj.1 * c.K + qj.2 = b) ∧
    ∀ q < c.W, ∀ j : Fin c.K, q * c.K + j.val < c.N ∧
      ∀ b < c.N, (∀ P : Lanes c, (interleave c P).getLsbD b = (P j).getLsbD q) ↔ b = q * c.K + j.val

/-- With K = 1 the word is the single lane; with W = 1 it is the K one-bit lanes side by side (R100's corner cases). -/
def Obligations.TransposeOfOneLaneOrOneBit : Prop :=
  ∀ (c : Config) (P : Lanes c),
    (c.K = 1 → (interleave c P).toNat = (laneAt P 0).toNat) ∧ (c.W = 1 → interleave c P = linearPack c P)

/-- A chunk of at most K ordinals below 2^W encodes, and word bit q*K + j is bit q of c_j, or 0 from position n on (R100,
R102, R103). -/
def Obligations.ValidChunkEncodes : Prop :=
  ∀ (c : Config) (cs : List Nat), cs.length ≤ c.K → (∀ o ∈ cs, o < 2 ^ c.W) →
    ∃ w, block c (.enc cs) = .word w ∧
      ∀ q < c.W, ∀ j < c.K, w.getLsbD (q * c.K + j) = (decide (j < cs.length) && (cs.getD j 0).testBit q)

/-- The index of a LaneWidthExceeded error is the highest failing source position (R106: the spec's own choice D8; log
entry 6). -/
def Obligations.LaneErrorNamesHighestPosition : Prop :=
  ∀ (c : Config) (cs : List Nat) (j : Nat), cs.length ≤ c.K →
    (block c (.enc cs) = .error .laneWidthExceeded j ↔
      j < cs.length ∧ 2 ^ c.W ≤ cs.getD j 0 ∧ ∀ k < cs.length, j < k → cs.getD k 0 < 2 ^ c.W)

/-- Padding is indistinguishable from ordinal 0, and the empty chunk and every all-zero chunk give 0 (R107). -/
def Obligations.PaddingLooksLikeOrdinalZero : Prop :=
  ∀ (c : Config) (cs : List Nat), (∀ o ∈ cs, o < 2 ^ c.W) →
    (cs.length < c.K → block c (.enc cs) = block c (.enc (cs ++ [0]))) ∧
    (cs.length ≤ c.K → (∀ o ∈ cs, o = 0) → block c (.enc cs) = .word 0)

/-- Two valid chunks give the same word exactly when they are equal after their trailing zero ordinals are removed (R107). -/
def Obligations.EncodeIsInjectiveUpToTrailingZeros : Prop :=
  ∀ (c : Config) (cs ds : List Nat), cs.length ≤ c.K → ds.length ≤ c.K → (∀ o ∈ cs, o < 2 ^ c.W) →
    (∀ o ∈ ds, o < 2 ^ c.W) →
    (block c (.enc cs) = block c (.enc ds) ↔ cs.rdropWhile (fun o => o == 0) = ds.rdropWhile (fun o => o == 0))

/-- The source's text algorithm (reverse, left-pad, read the lanes column by column, parse as binary) gives the same word as
the formula, for every configuration and valid chunk (R102 to R104). The algorithm is the model's own writing of the
sentences those rules quote (DEDUCED, log entry 18). -/
def Obligations.SourceTextEncodeAgrees : Prop :=
  ∀ (c : Config) (cs : List Nat), cs.length ≤ c.K → (∀ o ∈ cs, o < 2 ^ c.W) →
    ∃ w, encodeChunk c cs = .ok w ∧ w.toNat = sourceEncode c cs

/-! ### DEC_CHUNK at the abstract interface -/

/-- R121: exactly 0 <= x < 2^N is accepted, everything else is MalformedWord; at the port that is an OR of din[XW-1:N] (the
spec's own inference within R121). -/
def Obligations.DecodeAcceptsExactlyTheWords : Prop :=
  (∀ (c : Config) (x : Int), ((∃ count P, block c (.dec x) = .chars count P) ↔ 0 ≤ x ∧ x < 2 ^ c.N) ∧
    (¬(0 ≤ x ∧ x < 2 ^ c.N) → block c (.dec x) = .error .malformedWord 0)) ∧
  ∀ (c : Config) (din : BitVec c.XW), c.WF →
    (operandHighBitSet c din = true ↔ block c (.dec din.toInt) = .error .malformedWord 0)

/-- R122: bit q of decoded lane j is word bit q*K + j, which inverts R103, and it is the source's strided selection of the
word's text. That selection is the model's own writing of the step that R122 quotes (DEDUCED, log entry 18). -/
def Obligations.InverseTransposeReadsEachBit : Prop :=
  ∀ (c : Config) (x : Int), 0 ≤ x → x < 2 ^ c.N → ∃ d, decodeChunk c x = .ok d ∧
    (∀ j : Fin c.K, ∀ q < c.W, (d.lanes j).getLsbD q = x.toNat.testBit (q * c.K + j.val)) ∧
    (∀ P : Lanes c, x.toNat = (interleave c P).toNat → d.lanes = P) ∧
    sourceSplit c (textOf c.N x.toNat) =
      (List.range c.K).map fun i => textOf c.W (laneAt d.lanes (c.K - 1 - i)).toNat

/-- R123 and R124: the lanes kept are P_0 .. P_{count-1} with count one more than the highest non-zero position, and 1 when
every lane is zero, which is what the source's strip from the front of its list keeps, and what a priority encoder over the
OR-reductions of P_1 .. P_{K-1} finds, plus one; the chunk is the kept lanes' ordinals in source order. The source's strip and
the priority encoder are the model's own writing of the sentences that R123 holds (DEDUCED, log entry 18). -/
def Obligations.StripKeepsUpToTheHighestNonzeroLane : Prop :=
  ∀ (c : Config) (x : Int), c.WF → 0 ≤ x → x < 2 ^ c.N → ∃ d, decodeChunk c x = .ok d ∧
    1 ≤ d.count ∧ d.count ≤ c.K ∧ (∀ j : Fin c.K, d.count ≤ j.val → d.lanes j = 0) ∧
    ((∃ j : Fin c.K, d.lanes j ≠ 0) → laneAt d.lanes (d.count - 1) ≠ 0) ∧
    ((∀ j : Fin c.K, d.lanes j = 0) → d.count = 1) ∧
    sourceStrip ((List.range c.K).map fun i => textOf c.W (laneAt d.lanes (c.K - 1 - i)).toNat) =
      (List.range d.count).reverse.map (fun j => textOf c.W (laneAt d.lanes j).toNat) ∧
    d.count = priorityEncode (fun j => decide (1 ≤ j) && orReduce (laneAt d.lanes j).getLsbD 0 c.W) c.K + 1 ∧
    d.chunk = (List.range d.count).map fun j => fromLane c (laneAt d.lanes j)

/-- A consumer may read data lanes 0..aux-1 as the decoded chunk and rely on the rest being zero (R125). -/
def Obligations.DataLanesBeyondTheCountAreZero : Prop :=
  ∀ (c : Config) (x : Int), c.WF → 0 ≤ x → x < 2 ^ c.N →
    ∃ d, decodeChunk c x = .ok d ∧ (auxOf c (block c (.dec x)).bus).toNat = d.count ∧
      d.chunk = (List.range d.count).map (fun j => ((dataOf c (block c (.dec x)).bus).extractLsb' (j * c.W) c.W).toNat) ∧
      ∀ j < c.K, d.count ≤ j → (dataOf c (block c (.dec x)).bus).extractLsb' (j * c.W) c.W = 0

/-- The source's text algorithm (left-pad, strided selection, strip from the front, reverse, read) gives the same characters
as the formulas, for every configuration and word (R122 to R124). The algorithm is the model's own writing of the sentences
those rules quote (DEDUCED, log entry 18). -/
def Obligations.SourceTextDecodeAgrees : Prop :=
  ∀ (c : Config) (x : Int), c.WF → 0 ≤ x → x < 2 ^ c.N →
    ∃ d, decodeChunk c x = .ok d ∧ d.chunk = sourceDecode c x.toNat

/-! ### Round trips and errors -/

/-- Word round trip (R126): every word decodes to a chunk that encodes to that word again. -/
def Obligations.WordRoundTrip : Prop :=
  ∀ (c : Config) (x : Int), c.WF → 0 ≤ x → x < 2 ^ c.N →
    ∃ d, decodeChunk c x = .ok d ∧ encodeChunk c d.chunk = .ok (BitVec.ofInt c.N x)

/-- Chunk round trip (R126): a valid chunk comes back without its trailing zero ordinals, and as [0] when that leaves
nothing. -/
def Obligations.ChunkRoundTripStrips : Prop :=
  ∀ (c : Config) (cs : List Nat), c.WF → cs.length ≤ c.K → (∀ o ∈ cs, o < 2 ^ c.W) →
    ∃ w d, encodeChunk c cs = .ok w ∧ decodeChunk c w.toNat = .ok d ∧ d.chunk = strip cs

/-- Exact recovery (R126): the round trip returns the chunk exactly when it is [0] or its last ordinal is not 0; it loses
information exactly for the empty chunk and for a chunk of two or more that ends in 0. -/
def Obligations.ChunkIsRecoveredExactlyWhen : Prop :=
  ∀ (c : Config) (cs : List Nat), c.WF → cs.length ≤ c.K → (∀ o ∈ cs, o < 2 ^ c.W) →
    ∃ w d, encodeChunk c cs = .ok w ∧ decodeChunk c w.toNat = .ok d ∧
      (d.chunk = cs ↔ cs = [0] ∨ cs.getLastD 0 ≠ 0) ∧
      (d.chunk ≠ cs ↔ cs = [] ∨ (2 ≤ cs.length ∧ cs.getLastD 0 = 0))

/-- R127's vectors at K = 4, W = 8: a leading null comes back, a trailing one is lost (90_conflicts.md C3). -/
def Obligations.TrailingNullsAreLostLeadingKept : Prop :=
  block Config.standard (.enc [0, 98]) = .word 0x02200020#32 ∧ block Config.standard (.enc [98, 0]) = .word 0x01100010#32 ∧
  block Config.standard (.enc [98]) = .word 0x01100010#32 ∧
  decSeq Config.standard [0x02200020] = .ok [0, 98] ∧ decSeq Config.standard [0x01100010] = .ok [98]

/-- R164: ENC_CHUNK raises only ChunkTooLong and LaneWidthExceeded and succeeds exactly on at most K ordinals below 2^W;
DEC_CHUNK raises only MalformedWord and succeeds exactly on an operand in [0, 2^N), whatever lanes it holds; there is no
illegal opcode, since a request word's response is that of the request its fields present, an ENC_CHUNK where bit 0 is clear
and a DEC_CHUNK where it is set. -/
def Obligations.NoOtherErrorIsRaised : Prop :=
  ∀ c : Config,
    (∀ (cs : List Nat) (e : ErrCode) (k : Nat), block c (.enc cs) = .error e k →
      e = .chunkTooLong ∨ e = .laneWidthExceeded) ∧
    (∀ cs : List Nat, (∃ w, block c (.enc cs) = .word w) ↔ cs.length ≤ c.K ∧ ∀ o ∈ cs, o < 2 ^ c.W) ∧
    (∀ (x : Int) (e : ErrCode) (k : Nat), block c (.dec x) = .error e k → e = .malformedWord) ∧
    (∀ x : Int, (∃ count P, block c (.dec x) = .chars count P) ↔ 0 ≤ x ∧ x < 2 ^ c.N) ∧
    ∀ w : RequestWord c, respond c w = (block c (requestOf c (decode c w))).bus ∧
      ((∃ cs, requestOf c (decode c w) = .enc cs) ↔ w.getLsbD 0 = false) ∧
      ((∃ x, requestOf c (decode c w) = .dec x) ↔ w.getLsbD 0 = true)

/-- A word made under one (K, W) and decoded under another has the result DEC_CHUNK gives under the decoder's parameters:
malformed exactly when it does not fit them, which needs the decoder's words to be the narrower ones (R24, R184). -/
def Obligations.OtherConfigurationStillDecodes : Prop :=
  ∀ (c1 c2 : Config) (w : EncodedWord c1),
    (block c2 (.dec w.toNat) = .error .malformedWord 0 ↔ 2 ^ c2.N ≤ w.toNat) ∧
    (block c2 (.dec w.toNat) = .error .malformedWord 0 → c2.N < c1.N)

/-! ### String sequencing -/

/-- R141: the chunks of a string are its characters m*K .. min(m*K+K, L)-1 in order, ceil(L/K) of them, each of 1 to K
characters, only the last shorter than K; none of them is too long to encode. -/
def Obligations.ChunksCutTheString : Prop :=
  ∀ (c : Config) (s : List Nat), c.WF →
    (splitChunks c s).flatten = s ∧ (splitChunks c s).length = (s.length + c.K - 1) / c.K ∧
    ∀ (m : Nat) (h : m < (splitChunks c s).length),
      (splitChunks c s)[m].length = min (m * c.K + c.K) s.length - m * c.K ∧
      1 ≤ (splitChunks c s)[m].length ∧ (splitChunks c s)[m].length ≤ c.K ∧
      (m + 1 < (splitChunks c s).length → (splitChunks c s)[m].length = c.K) ∧
      (∀ k < (splitChunks c s)[m].length, (splitChunks c s)[m].getD k 0 = s.getD (m * c.K + k) 0) ∧
      encodeChunk c (splitChunks c s)[m] ≠ .error ⟨.chunkTooLong, 0⟩

/-- ENCSTR of ordinals that all fit gives ceil(L/K) words, word m that of chunk m, and no words for the empty string (R140,
R147). -/
def Obligations.EncStrGivesOneWordPerChunk : Prop :=
  ∀ (c : Config) (s : List Nat), c.WF → (∀ o ∈ s, o < 2 ^ c.W) →
    ∃ ws, encStr c s = .ok ws ∧ ws.length = (s.length + c.K - 1) / c.K ∧ (s = [] → ws = []) ∧
      ∀ (m : Nat) (h : m < ws.length), encodeChunk c ((s.drop (m * c.K)).take c.K) = .ok ws[m]

/-- ENCSTR fails exactly when some ordinal does not fit, with no word delivered; the error is that of the first failing
chunk, at the position its index names (R142; the reported indices are the spec's own choice D19, D8). -/
def Obligations.EncStrFailsAtTheFirstBadChunk : Prop :=
  ∀ (c : Config) (s : List Nat), c.WF →
    ((∃ e, encStr c s = .error e) ↔ ∃ o ∈ s, 2 ^ c.W ≤ o) ∧
    ∀ e : StringError, encStr c s = .error e →
      e.code = .laneWidthExceeded ∧ e.idx < c.K ∧ e.position c < s.length ∧ 2 ^ c.W ≤ s.getD (e.position c) 0 ∧
      (∀ p < e.chunk * c.K, s.getD p 0 < 2 ^ c.W) ∧
      ∀ p < s.length, e.position c < p → p < (e.chunk + 1) * c.K → s.getD p 0 < 2 ^ c.W

/-- DECSEQ of M words delivers the decoded chunks of its elements one after another, between M and K*M characters, and fails
exactly when an element is out of range, at the first such (R143; the reported index is the spec's own choice D19, log
entry 15). -/
def Obligations.DecSeqJoinsOrFailsAtTheFirst : Prop :=
  ∀ (c : Config) (xs : List Int), c.WF →
    (∀ out, decSeq c xs = .ok out → xs.length ≤ out.length ∧ out.length ≤ c.K * xs.length ∧
      ∃ ds : List (Decoded c), xs.map (decodeChunk c) = ds.map .ok ∧ out = (ds.map Decoded.chunk).flatten) ∧
    (∀ (x : Int) (d : Decoded c), decodeChunk c x = .ok d → decSeq c [x] = .ok d.chunk) ∧
    (∀ out ys out', decSeq c xs = .ok out → decSeq c ys = .ok out' → decSeq c (xs ++ ys) = .ok (out ++ out')) ∧
    ((∃ out, decSeq c xs = .ok out) ↔ ∀ x ∈ xs, 0 ≤ x ∧ x < 2 ^ c.N) ∧
    ∀ e : StringError, decSeq c xs = .error e →
      e.code = .malformedWord ∧ e.idx = 0 ∧ (∃ h : e.chunk < xs.length, ¬(0 ≤ xs[e.chunk] ∧ xs[e.chunk] < 2 ^ c.N)) ∧
      ∀ (m : Nat) (h : m < xs.length), m < e.chunk → 0 ≤ xs[m] ∧ xs[m] < 2 ^ c.N

/-- String round trip (R144): a string whose ordinals all fit comes back with the trailing zero ordinals of each chunk
removed, at least one character kept per chunk. -/
def Obligations.StringRoundTripStripsEachChunk : Prop :=
  ∀ (c : Config) (s : List Nat), c.WF → (∀ o ∈ s, o < 2 ^ c.W) →
    ∃ ws, encStr c s = .ok ws ∧
      decSeq c (ws.map fun w => (w.toNat : Int)) = .ok ((splitChunks c s).map strip).flatten

/-- The string round trip is exact exactly when every chunk is [0] or ends in an ordinal that is not 0 (R144). -/
def Obligations.StringIsRecoveredExactlyWhen : Prop :=
  ∀ (c : Config) (s : List Nat), c.WF → (∀ o ∈ s, o < 2 ^ c.W) →
    ∃ ws, encStr c s = .ok ws ∧
      (decSeq c (ws.map fun w => (w.toNat : Int)) = .ok s ↔
        ∀ chunk ∈ splitChunks c s, chunk = [0] ∨ chunk.getLastD 0 ≠ 0)

/-- The machine carries out ENCSTR: the host's requests for a string, run one a step from any idle state, leave exactly the
responses from which the host has ENCSTR's result, words or error (R68, R140, R142). The queue, one read a step, and
presenting every request after an error too are the model's choice (log entries 2 and 15). -/
def Obligations.MachineCarriesOutEncStr : Prop :=
  ∀ (s : State) (str : List Nat), s.pending = [] → (∀ o ∈ str, o < 2 ^ Config.standard.OW) →
    ∃ (t : State) (rs : List (ResponseWord Config.standard)),
      Host.Core.run core (encStrInstrs Config.standard str).length
        { s with pending := (encStrInstrs Config.standard str).map (encode Config.standard) } = .next t ∧
      t.pending = [] ∧ t.responses = s.responses ++ rs ∧
      hostEncStr Config.standard rs = encStr Config.standard str

/-- The machine carries out DECSEQ in the same way, on every sequence of 64-bit operands (R68, R143). The queue, one read a
step, and presenting every request after an error too are the model's choice (log entries 2 and 15). -/
def Obligations.MachineCarriesOutDecSeq : Prop :=
  ∀ (s : State) (xs : List Int), s.pending = [] → (∀ x ∈ xs, operandFits Config.standard x = true) →
    ∃ (t : State) (rs : List (ResponseWord Config.standard)),
      Host.Core.run core (decSeqInstrs xs).length
        { s with pending := (decSeqInstrs xs).map (encode Config.standard) } = .next t ∧
      t.pending = [] ∧ t.responses = s.responses ++ rs ∧
      hostDecSeq Config.standard rs = decSeq Config.standard xs
end

