-- ==== Sys2Proof/Laws/Bits.lean ====
section
/-! SUPPORT. The bits of the words the shared operations build: one lemma for each. -/

namespace Sys2Proof.Machine

/-- A word built from its bits has those bits. -/
@[simp] theorem getLsbD_ofBits (n : Nat) (f : Nat → Bool) (i : Nat) :
    (ofBits n f).getLsbD i = (decide (i < n) && f i) := by
  induction n with
  | zero => simp [ofBits]
  | succ n ih =>
    rw [ofBits, BitVec.getLsbD_cons, ih]
    by_cases h : i = n
    · simp [h]
    · have : (i < n + 1) ↔ i < n := by omega
      simp [h, this]

/-- Words built from equal bits are equal. -/
theorem ofBits_congr {n : Nat} {f g : Nat → Bool} (h : ∀ i < n, f i = g i) : ofBits n f = ofBits n g := by
  apply BitVec.eq_of_getLsbD_eq
  intro i hi
  rw [getLsbD_ofBits, getLsbD_ofBits, h i hi]

/-- The lane of a source position. -/
@[simp] theorem laneAt_val {c : Config} (P : Lanes c) (j : Fin c.K) : laneAt P j.val = P j := by simp [laneAt]

/-- Inside the chunk it is the position's lane. -/
theorem laneAt_of_lt {c : Config} (P : Lanes c) {j : Nat} (h : j < c.K) : laneAt P j = P ⟨j, h⟩ := by simp [laneAt, h]

/-- Outside the chunk it is the zero lane. -/
theorem laneAt_of_le {c : Config} (P : Lanes c) {j : Nat} (h : c.K ≤ j) : laneAt P j = 0#c.W := by
  simp [laneAt, Nat.not_lt.mpr h]

/-- With j < a, position q*a + j splits again into q and j. -/
theorem stride_split {a q j : Nat} (h : j < a) : (q * a + j) % a = j ∧ (q * a + j) / a = q := by
  constructor
  · rw [Nat.mul_comm, Nat.mul_add_mod, Nat.mod_eq_of_lt h]
  · rw [Nat.mul_comm, Nat.mul_add_div (by omega), Nat.div_eq_of_lt h]; rfl

/-- With q < b and j < a, position q*a + j lies below a*b. -/
theorem stride_lt {a b q j : Nat} (hq : q < b) (hj : j < a) : q * a + j < a * b := by
  calc q * a + j < q * a + a := by omega
    _ = (q + 1) * a := by ring
    _ ≤ b * a := Nat.mul_le_mul_right a hq
    _ = a * b := Nat.mul_comm ..

/-- Bit q*K + j of the transposed word (R103). -/
theorem getLsbD_interleave (c : Config) (P : Lanes c) {q j : Nat} (hq : q < c.W) (hj : j < c.K) :
    (interleave c P).getLsbD (q * c.K + j) = (laneAt P j).getLsbD q := by
  have := stride_split (q := q) hj
  have h2 : q * c.K + j < c.N := stride_lt hq hj
  rw [interleave, getLsbD_ofBits, this.1, this.2, decide_eq_true h2, Bool.true_and]

/-- Bit q of a de-interleaved lane (R122). -/
theorem getLsbD_deinterleave (c : Config) (w : EncodedWord c) (j : Fin c.K) {q : Nat} (hq : q < c.W) :
    (deinterleave c w j).getLsbD q = w.getLsbD (q * c.K + j.val) := by
  rw [deinterleave, getLsbD_ofBits, decide_eq_true hq, Bool.true_and]

/-- Bit j*W + q of the linear packing (R42). -/
theorem getLsbD_linearPack (c : Config) (P : Lanes c) {q j : Nat} (hq : q < c.W) (hj : j < c.K) :
    (linearPack c P).getLsbD (j * c.W + q) = (laneAt P j).getLsbD q := by
  have := stride_split (q := j) hq
  have h2 : j * c.W + q < c.N := by rw [Config.N, Nat.mul_comm c.K]; exact stride_lt hj hq
  rw [linearPack, getLsbD_ofBits, this.1, this.2, decide_eq_true h2, Bool.true_and]

/-- A lane is zero when all its bits are. -/
theorem lane_zero_iff {c : Config} (L : Lane c.W) : L = 0#c.W ↔ ∀ q < c.W, L.getLsbD q = false := by
  constructor
  · rintro rfl; simp
  · intro h; apply BitVec.eq_of_getLsbD_eq; intro q hq; rw [h q hq]; simp

/-- A word with the bits of a number that fits it has that value. -/
theorem eq_of_field {n : Nat} (v : BitVec n) (m : Nat) (hm : m < 2 ^ n) (h : ∀ k < n, v.getLsbD k = m.testBit k) : v.toNat = m := by
  have : v = BitVec.ofNat n m := by
    apply BitVec.eq_of_getLsbD_eq
    intro i hi
    rw [h i hi, BitVec.getLsbD_ofNat]; simp [hi]
  rw [this, BitVec.toNat_ofNat, Nat.mod_eq_of_lt hm]

end Sys2Proof.Machine
end

