-- ==== Sys2Proof/Laws/Chunk.lean ====
section
/-! SUPPORT. What the lane unit, ENC_CHUNK and DEC_CHUNK can answer, case by case. -/

namespace Sys2Proof.Machine

/-- An ordinal that fits has its lane (R80). -/
theorem toLane_ok {c : Config} {o : Nat} (h : o < 2 ^ c.W) : toLane c o = .ok (BitVec.ofNat c.W o) := by
  rw [toLane, if_neg (by omega)]

/-- An ordinal that does not fit is rejected (R80). -/
theorem toLane_error {c : Config} {o : Nat} (h : 2 ^ c.W ≤ o) : toLane c o = .error .laneWidthExceeded := by
  rw [toLane, if_pos h]

/-- The positions that fail the range check (R100). -/
theorem mem_badPositions {c : Config} {cs : List Nat} {j : Nat} :
    j ∈ badPositions c cs ↔ j < cs.length ∧ 2 ^ c.W ≤ cs.getD j 0 := by
  simp [badPositions]

/-- No position fails when every ordinal fits. -/
theorem badPositions_eq_nil {c : Config} {cs : List Nat} :
    badPositions c cs = [] ↔ ∀ o ∈ cs, o < 2 ^ c.W := by
  rw [List.eq_nil_iff_forall_not_mem]
  constructor
  · intro h o ho
    obtain ⟨j, hj, rfl⟩ := List.mem_iff_getElem.mp ho
    have := h j
    rw [mem_badPositions] at this
    simp [hj] at this
    exact this
  · intro h j hj
    rw [mem_badPositions] at hj
    have := h cs[j] (List.getElem_mem _)
    have e : cs.getD j 0 = cs[j] := by simp [hj.1]
    omega

/-- ENC_CHUNK of more than K characters. -/
theorem encodeChunk_tooLong {c : Config} {cs : List Nat} (h : c.K < cs.length) :
    encodeChunk c cs = .error ⟨.chunkTooLong, 0⟩ := by rw [encodeChunk, if_pos h]

/-- ENC_CHUNK of a valid chunk. -/
theorem encodeChunk_valid {c : Config} {cs : List Nat} (h : cs.length ≤ c.K) (hv : ∀ o ∈ cs, o < 2 ^ c.W) :
    encodeChunk c cs = .ok (interleave c (padLanes c cs)) := by
  rw [encodeChunk, if_neg (by omega), badPositions_eq_nil.mpr hv]; rfl

/-- When ENC_CHUNK raises LaneWidthExceeded, and at which position. -/
theorem encodeChunk_bad {c : Config} {cs : List Nat} {j : Nat} (h : cs.length ≤ c.K) :
    encodeChunk c cs = .error ⟨.laneWidthExceeded, j⟩ ↔
    j < cs.length ∧ 2 ^ c.W ≤ cs.getD j 0 ∧ ∀ k < cs.length, j < k → cs.getD k 0 < 2 ^ c.W := by
  rw [encodeChunk, if_neg (by omega)]
  have key : (badPositions c cs).max? = some j ↔
    j < cs.length ∧ 2 ^ c.W ≤ cs.getD j 0 ∧ ∀ k < cs.length, j < k → cs.getD k 0 < 2 ^ c.W := by
    rw [List.max?_eq_some_iff, mem_badPositions, and_assoc]
    refine and_congr_right fun _ => and_congr_right fun _ => ?_
    constructor
    · intro hb k hk hjk
      by_contra hc
      have := hb k (mem_badPositions.mpr ⟨hk, by omega⟩)
      omega
    · intro hb k hk
      rw [mem_badPositions] at hk
      by_contra hc
      have := hb k hk.1 (by omega)
      omega
  rw [← key]
  cases (badPositions c cs).max? <;> simp

/-- Everything ENC_CHUNK can answer (R100). -/
theorem encodeChunk_cases (c : Config) (cs : List Nat) :
    (c.K < cs.length ∧ encodeChunk c cs = .error ⟨.chunkTooLong, 0⟩) ∨
    (cs.length ≤ c.K ∧ ∃ j, j < cs.length ∧ 2 ^ c.W ≤ cs.getD j 0 ∧ (∀ k < cs.length, j < k → cs.getD k 0 < 2 ^ c.W) ∧ encodeChunk c cs = .error ⟨.laneWidthExceeded, j⟩) ∨
    (cs.length ≤ c.K ∧ (∀ o ∈ cs, o < 2 ^ c.W) ∧ encodeChunk c cs = .ok (interleave c (padLanes c cs))) := by
  rcases Nat.lt_or_ge c.K cs.length with h | h
  · exact .inl ⟨h, encodeChunk_tooLong h⟩
  · by_cases hv : ∀ o ∈ cs, o < 2 ^ c.W
    · exact .inr (.inr ⟨h, hv, encodeChunk_valid h hv⟩)
    · refine .inr (.inl ⟨h, ?_⟩)
      have : ∃ j, encodeChunk c cs = .error ⟨.laneWidthExceeded, j⟩ := by
        rw [encodeChunk, if_neg (by omega)]
        cases hm : (badPositions c cs).max? with
        | none => exact absurd (badPositions_eq_nil.mp (List.max?_eq_none_iff.mp hm)) hv
        | some j => exact ⟨j, rfl⟩
      obtain ⟨j, hj⟩ := this
      have := (encodeChunk_bad h).mp hj
      exact ⟨j, this.1, this.2.1, this.2.2, hj⟩

/-- The lane of a present character (R102). -/
theorem padLanes_of_lt {c : Config} {cs : List Nat} {j : Fin c.K} (h : j.val < cs.length) (hv : cs[j.val] < 2 ^ c.W) :
    padLanes c cs j = BitVec.ofNat c.W cs[j.val] := by
  simp [padLanes, h, toLane_ok hv]

/-- A padding lane (R102). -/
theorem padLanes_of_le {c : Config} {cs : List Nat} {j : Fin c.K} (h : cs.length ≤ j.val) :
    padLanes c cs j = 0#c.W := by
  simp [padLanes, List.getElem?_eq_none h]

/-- Reading a chunk with default 0 keeps a bound on its ordinals. -/
theorem getD_lt {cs : List Nat} {b j : Nat} (hb : 0 < b) (hv : ∀ o ∈ cs, o < b) : cs.getD j 0 < b := by
  by_cases h : j < cs.length
  · have : cs.getD j 0 = cs[j] := by simp [h]
    rw [this]; exact hv _ (List.getElem_mem _)
  · rw [List.getD_eq_default _ _ (by omega)]; exact hb

/-- Every lane of a valid chunk, padding among them. -/
theorem laneAt_padLanes {c : Config} {cs : List Nat} (hv : ∀ o ∈ cs, o < 2 ^ c.W) {j : Nat} (hj : j < c.K) :
    laneAt (padLanes c cs) j = BitVec.ofNat c.W (cs.getD j 0) := by
  rw [laneAt_of_lt _ hj]
  by_cases h : j < cs.length
  · rw [padLanes_of_lt (j := ⟨j, hj⟩) h (hv _ (List.getElem_mem _))]; simp [h]
  · rw [padLanes_of_le (by simpa using h), List.getD_eq_default _ _ (by omega)]

/-- The strip's loop: the last position that passes a test, plus one, or 1. -/
theorem foldl_kept (p : Nat → Bool) (n : Nat) :
    let r := (List.range n).foldl (fun count j => if p j then j + 1 else count) 1
    (∀ j < n, p j = true → j < r) ∧ (r = 1 ∨ (r - 1 < n ∧ p (r - 1) = true ∧ 1 ≤ r)) := by
  induction n with
  | zero => simp
  | succ n ih =>
    simp only [List.range_succ, List.foldl_append, List.foldl_cons, List.foldl_nil]
    obtain ⟨h1, h2⟩ := ih
    split
    · rename_i hp
      refine ⟨?_, .inr ?_⟩
      · intro j hj _; omega
      · simp [hp]
    · rename_i hp
      refine ⟨?_, ?_⟩
      · intro j hj hpj
        rcases Nat.lt_succ_iff_lt_or_eq.mp hj with h | h
        · exact h1 j h hpj
        · subst h; contradiction
      · rcases h2 with h | ⟨h, h', h''⟩
        · exact .inl h
        · exact .inr ⟨by omega, h', h''⟩

/-- Everything the strip answers (R123). -/
theorem keptCount_spec (c : Config) (P : Lanes c) :
    1 ≤ keptCount c P ∧ (1 ≤ c.K → keptCount c P ≤ c.K) ∧ (∀ j, keptCount c P ≤ j → laneAt P j = 0#c.W) ∧
    (keptCount c P = 1 ∨ laneAt P (keptCount c P - 1) ≠ 0#c.W) := by
  have h := foldl_kept (fun j => decide (1 ≤ j ∧ laneAt P j ≠ 0#c.W)) c.K
  have e : keptCount c P = (List.range c.K).foldl (fun count j => if (decide (1 ≤ j ∧ laneAt P j ≠ 0#c.W)) then j + 1 else count) 1 := by
    simp only [decide_eq_true_eq]; rfl
  simp only [← e] at h
  obtain ⟨h1, h2⟩ := h
  simp only [decide_eq_true_eq] at h1 h2
  refine ⟨by omega, by omega, ?_, ?_⟩
  · intro j hj
    by_cases hk : j < c.K
    · by_contra hc
      have := h1 j hk ⟨by omega, hc⟩
      omega
    · exact laneAt_of_le P (by omega)
  · rcases h2 with h | h
    · exact .inl h
    · exact .inr h.2.1.2

/-- DEC_CHUNK of a word in range. -/
theorem decodeChunk_ok {c : Config} {x : Int} (h0 : 0 ≤ x) (h1 : x < 2 ^ c.N) :
    decodeChunk c x = .ok ⟨keptCount c (deinterleave c (BitVec.ofInt c.N x)), deinterleave c (BitVec.ofInt c.N x)⟩ := by
  rw [decodeChunk, if_neg (by omega)]

/-- DEC_CHUNK of an operand out of range. -/
theorem decodeChunk_error {c : Config} {x : Int} (h : x < 0 ∨ 2 ^ c.N ≤ x) : decodeChunk c x = .error ⟨.malformedWord, 0⟩ := by
  rw [decodeChunk, if_pos h]

/-- Everything DEC_CHUNK can answer (R120). -/
theorem decodeChunk_cases (c : Config) (x : Int) :
    (¬(0 ≤ x ∧ x < 2 ^ c.N) ∧ decodeChunk c x = .error ⟨.malformedWord, 0⟩) ∨
    (0 ≤ x ∧ x < 2 ^ c.N ∧ decodeChunk c x = .ok ⟨keptCount c (deinterleave c (BitVec.ofInt c.N x)), deinterleave c (BitVec.ofInt c.N x)⟩) := by
  by_cases h : 0 ≤ x ∧ x < 2 ^ c.N
  · exact .inr ⟨h.1, h.2, decodeChunk_ok h.1 h.2⟩
  · exact .inl ⟨h, decodeChunk_error (by omega)⟩

/-- The bits of a word in range are those of its value. -/
theorem getLsbD_ofInt_of_nonneg {n : Nat} {x : Int} (h0 : 0 ≤ x) (h1 : x < 2 ^ n) (i : Nat) :
    (BitVec.ofInt n x).getLsbD i = x.toNat.testBit i := by
  obtain ⟨k, rfl⟩ := Int.eq_ofNat_of_zero_le h0
  rw [BitVec.ofInt_natCast, BitVec.getLsbD_ofNat, Int.toNat_natCast]
  by_cases hi : i < n
  · simp [hi]
  · have hk : k < 2 ^ n := by exact_mod_cast h1
    rw [Nat.testBit_lt_two_pow (lt_of_lt_of_le hk (Nat.pow_le_pow_right (by omega) (by omega)))]; simp

/-- The value of a word in range. -/
theorem toNat_ofInt_of_nonneg {n : Nat} {x : Int} (h0 : 0 ≤ x) (h1 : x < 2 ^ n) : (BitVec.ofInt n x).toNat = x.toNat := by
  obtain ⟨k, rfl⟩ := Int.eq_ofNat_of_zero_le h0
  have hk : k < 2 ^ n := by exact_mod_cast h1
  rw [BitVec.ofInt_natCast, BitVec.toNat_ofNat, Nat.mod_eq_of_lt hk, Int.toNat_natCast]

/-- Bit q of decoded lane j is bit q*K + j of the operand (R122). -/
theorem laneAt_deint {c : Config} {x : Int} (h0 : 0 ≤ x) (h1 : x < 2 ^ c.N) {q j} (hq : q < c.W) (hj : j < c.K) :
    (laneAt (deinterleave c (BitVec.ofInt c.N x)) j).getLsbD q = x.toNat.testBit (q * c.K + j) := by
  rw [laneAt_of_lt _ hj, getLsbD_deinterleave c _ ⟨j, hj⟩ hq, getLsbD_ofInt_of_nonneg h0 h1]

/-- The presented chunk has n characters (R65). -/
theorem presented_length (c) (n) (chs) : (presentedChunk c n chs).length = n := by simp [presentedChunk]

/-- The presented ordinals are those of the fields (R65). -/
theorem presented_getD {c : Config} {n : Nat} {chs : List Nat} (hn : n ≤ c.K) {j : Nat} (hj : j < n) :
    (presentedChunk c n chs).getD j 0 = chs.getD j 0 := by
  have : j < c.K := by omega
  simp [presentedChunk, presentedOrdinal, hj, this]

end Sys2Proof.Machine
end

