-- ==== Sys2Proof/Laws/Ports.lean ====
section
/-! SUPPORT. The buses field by field, the widths of the default block, and which requests fit the ports. -/

namespace Sys2Proof.Machine

/-- The err field of a response bus (R63). -/
theorem errOf_bus {c : Config} (p : PortOutputs c) : errOf c p.bus = p.err := by
  apply BitVec.eq_of_getLsbD_eq
  intro i hi
  simp [errOf, PortOutputs.bus, BitVec.getLsbD_append, hi]

/-- The aux field of a response bus (R63). -/
theorem auxOf_bus {c : Config} (p : PortOutputs c) : auxOf c p.bus = p.aux := by
  apply BitVec.eq_of_getLsbD_eq
  intro i hi
  have h1 : ¬ (2 + i < 2) := by omega
  simp only [auxOf, PortOutputs.bus, BitVec.getLsbD_extractLsb', BitVec.getLsbD_cast, BitVec.getLsbD_append, hi, h1,
    Nat.add_sub_cancel_left]
  simp

/-- The data field of a response bus (R63). -/
theorem dataOf_bus {c : Config} (p : PortOutputs c) : dataOf c p.bus = p.data := by
  apply BitVec.eq_of_getLsbD_eq
  intro i hi
  have h1 : ¬ (c.CNTW + 2 + i < 2) := by omega
  have h2 : ¬ (c.CNTW + 2 + i < c.CNTW + 2) := by omega
  have h3 : c.CNTW + 2 + i - 2 - c.CNTW = i := by omega
  have h4 : ¬ (c.CNTW + 2 + i - 2 < c.CNTW) := by omega
  simp only [dataOf, PortOutputs.bus, BitVec.getLsbD_extractLsb', BitVec.getLsbD_cast, BitVec.getLsbD_append, hi, h1, h3, h4]
  simp

/-- The err field of a response. -/
theorem errOf_response {c : Config} (r : Response c) : errOf c r.bus = r.ports.err := errOf_bus _

/-- The aux field of a response. -/
theorem auxOf_response {c : Config} (r : Response c) : auxOf c r.bus = r.ports.aux := auxOf_bus _

/-- The data field of a response. -/
theorem dataOf_response {c : Config} (r : Response c) : dataOf c r.bus = r.ports.data := dataOf_bus _

/-- The count field holds K+1 (R7). -/
theorem count_lt (c : Config) : c.K + 1 < 2 ^ c.CNTW := by
  simp only [Config.CNTW, bitLength]
  rw [if_neg (by omega)]
  exact Nat.lt_log2_self

/-- A count or index of at most K stands whole in aux. -/
theorem toNat_aux {c : Config} {n : Nat} (h : n ≤ c.K) : (BitVec.ofNat c.CNTW n).toNat = n := by
  have := count_lt c
  rw [BitVec.toNat_ofNat, Nat.mod_eq_of_lt (by omega)]

/-- When an ENC_CHUNK request fits the ports. -/
theorem wf_enc {c : Config} {n : Nat} {chs : List Nat} : Instr.wf c (.encChunk n chs) = true ↔
    n < 2 ^ c.CNTW ∧ chs.length = c.K ∧ ∀ o ∈ chs, o < 2 ^ c.OW := by
  simp [Instr.wf, countFits, hasAllFields, ordinalsFit, and_assoc]

/-- When a DEC_CHUNK request fits the ports. -/
theorem wf_dec {c : Config} {x : Int} : Instr.wf c (.decChunk x) = true ↔ -(2 ^ (c.XW - 1) : Int) ≤ x ∧ x < (2 ^ (c.XW - 1) : Int) := by
  simp [Instr.wf, operandFits]

/-- K of the default block (R5). -/
theorem standard_K : Config.standard.K = 4 := rfl

/-- W of the default block (R5). -/
theorem standard_W : Config.standard.W = 8 := rfl

/-- N of the default block (R6). -/
theorem standard_N : Config.standard.N = 32 := rfl

/-- RQW of the default block (R60). -/
theorem standard_RQW : Config.standard.RQW = 88 := rfl

/-- RSW of the default block (R63). -/
theorem standard_RSW : Config.standard.RSW = 37 := rfl

end Sys2Proof.Machine
end

