-- ==== Sys2Proof/Laws/State.lean ====
section
/-! SUPPORT. One lemma for each field and each operation on the state: every one by rfl. -/

namespace Sys2Proof.Machine.State

variable (s : State) (w : RequestWord Config.standard) (rest : List (RequestWord Config.standard))
  (r : ResponseWord Config.standard) (nbits v : Nat)

@[simp] theorem present_pending : (s.present w rest).pending = rest := rfl
@[simp] theorem present_req : (s.present w rest).req = w := rfl
@[simp] theorem present_resp : (s.present w rest).resp = s.resp := rfl
@[simp] theorem present_responses : (s.present w rest).responses = s.responses := rfl

@[simp] theorem driveBus_pending : (s.driveBus r).pending = s.pending := rfl
@[simp] theorem driveBus_req : (s.driveBus r).req = s.req := rfl
@[simp] theorem driveBus_resp : (s.driveBus r).resp = r := rfl
@[simp] theorem driveBus_responses : (s.driveBus r).responses = s.responses := rfl

@[simp] theorem readResponse_pending : s.readResponse.pending = s.pending := rfl
@[simp] theorem readResponse_req : s.readResponse.req = s.req := rfl
@[simp] theorem readResponse_resp : s.readResponse.resp = s.resp := rfl
@[simp] theorem readResponse_responses : s.readResponse.responses = s.responses ++ [s.resp] := rfl

@[simp] theorem withFetchWord_pending :
    (s.withFetchWord nbits v).pending = requestOfTableWord Config.standard nbits v :: s.pending := rfl
@[simp] theorem withFetchWord_req : (s.withFetchWord nbits v).req = s.req := rfl
@[simp] theorem withFetchWord_resp : (s.withFetchWord nbits v).resp = s.resp := rfl
@[simp] theorem withFetchWord_responses : (s.withFetchWord nbits v).responses = s.responses := rfl

end Sys2Proof.Machine.State
end

