-- ==== Sys2Proof/Laws/Exec.lean ====
section
/-! SUPPORT. What `exec` and `step` do, once: the proofs about steps cite these and unfold neither. -/

namespace Sys2Proof.Machine

/-- Both operations drive the response bus with the block's response and do nothing else. -/
theorem exec_eq (i : Instr) (s : State) :
    exec i s = .next (s.driveBus (block Config.standard (requestOf Config.standard i)).bus) := by
  cases i <;> rfl

/-- A step with no request pending: the held request is answered again. -/
theorem step_of_idle {s : State} (h : s.pending = []) :
    step s = .next (s.driveBus (respond Config.standard s.req)) := by
  rw [step, h]
  exact exec_eq _ _

/-- A step with a request pending: it is presented, answered, and its response read. -/
theorem step_of_pending {s : State} {w : RequestWord Config.standard} {rest : List (RequestWord Config.standard)}
    (h : s.pending = w :: rest) :
    step s = .next (((s.present w rest).driveBus (respond Config.standard w)).readResponse) := by
  rw [step, h]
  simp only [exec_eq]
  rfl

/-- Everything a step that goes on can do. -/
theorem step_cases {s t : State} (h : step s = .next t) :
    (s.pending = [] ∧ t = s.driveBus (respond Config.standard s.req)) ∨
    (∃ w rest, s.pending = w :: rest ∧ t = ((s.present w rest).driveBus (respond Config.standard w)).readResponse) := by
  cases hp : s.pending with
  | nil =>
    rw [step_of_idle hp] at h
    cases h
    exact .inl ⟨rfl, rfl⟩
  | cons w rest =>
    rw [step_of_pending hp] at h
    cases h
    exact .inr ⟨w, rest, rfl, rfl⟩

end Sys2Proof.Machine
end

