-- ==== Sys2Proof/Laws/Netlist.lean ====
section
/-! SUPPORT. What the gates of the netlist compute. -/

namespace Sys2Proof.Machine

/-- An OR-reduction is set when one of its inputs is. -/
theorem orReduce_iff (f : Nat → Bool) (lo len : Nat) : orReduce f lo len = true ↔ ∃ i < len, f (lo + i) = true := by
  simp [orReduce]

/-- A priority encoder answers the highest set input. -/
theorem priorityEncode_spec (f : Nat → Bool) (n : Nat) :
    (∀ j < n, f j = true → j ≤ priorityEncode f n) ∧ ((∃ j < n, f j = true) → priorityEncode f n < n ∧ f (priorityEncode f n) = true) ∧
    ((∀ j < n, f j = false) → priorityEncode f n = 0) := by
  induction n with
  | zero => simp [priorityEncode]
  | succ n ih =>
    rw [priorityEncode]
    by_cases h : f n = true
    · rw [if_pos h]
      refine ⟨fun j hj _ => by omega, fun _ => ⟨by omega, h⟩, fun hz => ?_⟩
      rw [hz n (by omega)] at h; cases h
    · rw [if_neg h]
      refine ⟨?_, ?_, ?_⟩
      · intro j hj hf
        rcases Nat.lt_succ_iff_lt_or_eq.mp hj with h' | h'
        · exact ih.1 j h' hf
        · subst h'; contradiction
      · rintro ⟨j, hj, hf⟩
        have : j ≠ n := by rintro rfl; exact h hf
        obtain ⟨a, b⟩ := ih.2.1 ⟨j, by omega, hf⟩
        exact ⟨by omega, b⟩
      · intro hz; exact ih.2.2 fun j hj => hz j (by omega)

end Sys2Proof.Machine
end

