-- ==== Sys2Proof/Laws/Strings.lean ====
section
/-! SUPPORT. The host's sequencing: when it delivers, when it fails and where, and the cut of a string. -/

namespace Sys2Proof.Machine

/-- All results are values. -/
theorem collect_ok {α} (l : List (Except Raised α)) (m : Nat) (as : List α) :
    collectFrom m l = .ok as ↔ l = as.map .ok := by
  induction l generalizing m as with
  | nil => cases as <;> simp [collectFrom]
  | cons r rest ih =>
    cases r with
    | error r => cases as <;> simp [collectFrom]
    | ok a =>
      simp only [collectFrom]
      cases as with
      | nil => cases collectFrom (m+1) rest <;> simp [Except.map]
      | cons b bs =>
        simp only [List.map_cons, List.cons.injEq, Except.ok.injEq, ← ih (m+1)]
        cases collectFrom (m+1) rest <;> simp [Except.map]

/-- Some result is an error, and the first one is reported. -/
theorem collect_error {α} (l : List (Except Raised α)) (m : Nat) (e : StringError) :
    collectFrom m l = .error e ↔ ∃ k, ∃ h : k < l.length, l[k] = .error ⟨e.code, e.idx⟩ ∧ e.chunk = m + k ∧ ∀ k' (h' : k' < k), ∃ a, l[k'] = .ok a := by
  induction l generalizing m with
  | nil => simp [collectFrom]
  | cons r rest ih =>
    cases r with
    | error r =>
      simp only [collectFrom]
      constructor
      · intro h; cases h
        exact ⟨0, by simp, rfl, rfl, fun k' h' => absurd h' (by omega)⟩
      · rintro ⟨k, h, h1, h2, h3⟩
        cases k with
        | zero => cases e; simp at h1 h2; subst h1; subst h2; rfl
        | succ k => obtain ⟨a, ha⟩ := h3 0 (by omega); cases ha
    | ok a =>
      simp only [collectFrom]
      have : (collectFrom (m + 1) rest).map (List.cons a) = .error e ↔ collectFrom (m+1) rest = .error e := by
        cases collectFrom (m+1) rest <;> simp [Except.map]
      rw [this, ih]
      constructor
      · rintro ⟨k, h, h1, h2, h3⟩
        refine ⟨k + 1, by simpa using h, by simpa using h1, by omega, ?_⟩
        intro k' h'
        cases k' with
        | zero => exact ⟨a, rfl⟩
        | succ k' => exact h3 k' (by omega)
      · rintro ⟨k, h, h1, h2, h3⟩
        cases k with
        | zero => cases h1
        | succ k => exact ⟨k, by simpa using h, by simpa using h1, by omega, fun k' h' => h3 (k'+1) (by omega)⟩

/-- The number of chunks (R141). -/
theorem chunkCount_mul (c : Config) (hK : 1 ≤ c.K) (L : Nat) : L ≤ chunkCount c L * c.K ∧ (∀ m, m < chunkCount c L ↔ m * c.K < L) := by
  have key : ∀ m, m < chunkCount c L ↔ m * c.K < L := by
    intro m
    rw [chunkCount, Nat.lt_iff_add_one_le, Nat.le_div_iff_mul_le hK]
    have : (m + 1) * c.K = m * c.K + c.K := by ring
    rw [this]; omega
  refine ⟨?_, key⟩
  by_contra h
  have := (key (chunkCount c L)).mpr (by omega)
  omega

/-- The chunks are as many as counted. -/
theorem split_length (c : Config) (s : List Nat) : (splitChunks c s).length = chunkCount c s.length := by simp [splitChunks]

/-- Chunk m of the split. -/
theorem split_get (c : Config) (s : List Nat) (m : Nat) (h : m < (splitChunks c s).length) : (splitChunks c s)[m] = chunkAt c s m := by
  simp [splitChunks]

/-- The length of chunk m. -/
theorem chunkAt_len (c : Config) (s : List Nat) (m : Nat) : (chunkAt c s m).length = min c.K (s.length - m * c.K) := by simp [chunkAt]

/-- No chunk is longer than K. -/
theorem chunkAt_length (c : Config) (s : List Nat) (m) : (chunkAt c s m).length ≤ c.K := by
  simp [chunkAt]

/-- Character k of chunk m is character m*K + k of the string. -/
theorem chunkAt_getD (c : Config) (s : List Nat) (m k : Nat) (h : k < c.K) : (chunkAt c s m).getD k 0 = s.getD (m * c.K + k) 0 := by
  simp [chunkAt, h]

/-- A chunk's characters are the string's. -/
theorem mem_chunkAt {c : Config} {s : List Nat} {m o : Nat} (h : o ∈ chunkAt c s m) : o ∈ s := List.mem_of_mem_drop (List.mem_of_mem_take h)

end Sys2Proof.Machine
end

