-- ==== Sys2Proof/Tests/Slice0.lean ====
section
/-! SUPPORT. Tests. Expected values are those of spec/95_test_vectors.md (named by their row) or written out by hand from
the field tables of 30_encoding.md R61 and R62; the witnesses show that the statements' hypotheses can be met. -/

namespace Sys2Proof.Tests

open Sys2Proof Machine

/-! ### WellFormed refuses each ill-formed term -/

theorem test_wf_accepts : Instr.wf Config.standard (.encChunk 7 [0, 1, 255, 0x1FFFFF]) = true := by decide
theorem test_wf_count_too_wide : Instr.wf Config.standard (.encChunk 8 [0, 0, 0, 0]) = false := by decide
theorem test_wf_field_missing : Instr.wf Config.standard (.encChunk 3 [0, 0, 0]) = false := by decide
theorem test_wf_field_too_many : Instr.wf Config.standard (.encChunk 3 [0, 0, 0, 0, 0]) = false := by decide
theorem test_wf_ordinal_too_wide : Instr.wf Config.standard (.encChunk 1 [0, 0, 0x200000, 0]) = false := by decide
theorem test_wf_operand_edges : Instr.wf Config.standard (.decChunk (2 ^ 63 - 1)) = true ∧
    Instr.wf Config.standard (.decChunk (-(2 ^ 63))) = true := by decide
theorem test_wf_operand_too_high : Instr.wf Config.standard (.decChunk (2 ^ 63)) = false := by decide
theorem test_wf_operand_too_low : Instr.wf Config.standard (.decChunk (-(2 ^ 63) - 1)) = false := by decide

/-! ### Words written out field by field -/

/-- op at [0], n at [3:1], ch_0 at [24:4], ch_1 at [45:25], ch_2 at [66:46], ch_3 at [87:67] (R61). -/
theorem test_decode_enc_fields :
    decodeTableWord 88 (0 + 2 ^ 1 * 5 + 2 ^ 4 * 0x10FFFF + 2 ^ 25 * 66 + 2 ^ 46 * 0 + 2 ^ 67 * 0x1FFFFF) =
      some (.encChunk 5 [0x10FFFF, 66, 0, 0x1FFFFF]) := by decide

/-- op at [0], din at [64:1] in two's complement, [87:65] ignored (R62). -/
theorem test_decode_dec_fields :
    decodeTableWord 88 (1 + 2 ^ 1 * (2 ^ 64 - 5) + 2 ^ 65 * 0x7FFFFF) = some (.decChunk (-5)) := by decide

/-- The table's words with every other bit 0 (spec/opcode_table.json: match 0x0 and 0x1 under mask 0x1). -/
theorem test_decode_table_rows :
    decodeTableWord 88 0 = some (.encChunk 0 [0, 0, 0, 0]) ∧ decodeTableWord 88 1 = some (.decChunk 0) := by decide

theorem test_encode_V_E9 : encode Config.standard (.encChunk 4 [68, 67, 66, 65]) = 0x0002080010800086000448#_ := by decide
theorem test_encode_V_D18 : encode Config.standard (.decChunk (-1)) = 0x000001FFFFFFFFFFFFFFFF#_ := by decide

/-! ### One step of each instruction -/

/-- The response word on the bus after one step with the given 88-bit request presented to the machine at reset. -/
def responseTo (w : Nat) : Option (ResponseWord Config.standard) :=
  match step (State.reset.withFetchWord 88 w) with
  | .next t => some t.resp
  | .fault _ => none
  | .refused _ => none

/-- V-E9, "DCBA": err 0, data 0x0F00016A; V-E1, the empty chunk. -/
theorem test_step_enc_word : responseTo 0x0002080010800086000448 = some 0x01E0002D40#_ ∧
    responseTo 0x0000000000000000000000 = some 0#_ := by decide

/-- V-E19, two failing positions; V-E22, too long wins; the ignored ch_1 of §2.2. -/
theorem test_step_enc_errors : responseTo 0x0002100800000082001008 = some 0x000000000A#_ ∧
    responseTo 0x000800004000020000100A = some 0x0000000001#_ ∧
    responseTo 0x0000000000000200000412 = some 0x0020000020#_ := by decide

/-- V-D12, four lanes; V-D16, a zero lane below a kept one. -/
theorem test_step_dec_lanes : responseTo 0x000000000000002468ACF1 = some 0x0023CCD550#_ ∧
    responseTo 0x0000000000000004400041 = some 0x00000C4008#_ := by decide

/-- V-D18 to V-D20: -1, 2^32 and -2^63. -/
theorem test_step_dec_errors : responseTo 0x000001FFFFFFFFFFFFFFFF = some 0x0000000003#_ ∧
    responseTo 0x0000000000000200000001 = some 0x0000000003#_ ∧
    responseTo 0x0000010000000000000001 = some 0x0000000003#_ := by decide

/-! ### The other configurations, the netlist, the source's text, strings and the assembler -/

/-- Program P5, steps 1, 2, 7 and 8, at K = 2, W = 4. -/
theorem test_P5_responses : respond (Config.ofKW 2 4) 0x5000054#_ = 0x660#_ ∧ respond (Config.ofKW 2 4) 0xCD#_ = 0x5A8#_ ∧
    respond (Config.ofKW 2 4) 0x82#_ = 0x002#_ ∧ respond (Config.ofKW 2 4) 0x200000E#_ = 0x001#_ := by decide

/-- V-C7: K = W = 3. -/
theorem test_V_C7 : encChunk (Config.ofKW 3 3) [5, 2, 7] = .word 373#_ ∧
    decSeq (Config.ofKW 3 3) [373] = .ok [5, 2, 7] := by decide

/-- V-E18 and V-D3 through the gates. -/
theorem test_netlist : netlist Config.standard 0x0000000000000200000614#_ = 0x0000000006#_ ∧
    netlist Config.standard 0x0000000000000000000005#_ = 0x0000002008#_ := by decide

/-- V-L6 by the document's own procedure, and V-D16. -/
theorem test_source_text : sourceEncode Config.standard [68, 67, 66, 65] = 0x0F00016A ∧
    sourceDecode Config.standard 0x02200020 = [0, 98] := by decide

/-- V-S1, V-S2, V-S6. -/
theorem test_strings : encStr Config.standard [97, 98, 99, 100, 101, 102] = .ok [0x0FF00865#_, 0x03300321#_] ∧
    decSeq Config.standard [0x0FF00865, 0x03300321] = .ok [97, 98, 99, 100, 101, 102] ∧
    decSeq Config.standard [0x01100001, 0x01100010] = .ok [97, 98] := by decide

/-- P4: the failing chunk and index of ENCSTR, the failing element of DECSEQ. -/
theorem test_P4_errors : encStr Config.standard [97, 98, 99, 100, 101, 0x100] = .error ⟨.laneWidthExceeded, 1, 1⟩ ∧
    decSeq Config.standard [0x0FF00865, -5, 0] = .error ⟨.malformedWord, 1, 0⟩ := by decide

/-- P2's first line `enc.chunk {'a', 0x100}` (the braces and quotes by their codes) and P4's `dec.chunk -5`. -/
theorem test_assemble : assemble Config.standard
      (['e', 'n', 'c', '.', 'c', 'h', 'u', 'n', 'k', ' ', '\x7b', '\x27', 'a', '\x27', ',', ' ', '0', 'x', '1', '0', '0', '\x7d',
        ' ', ';', 'x', '\n', 'd', 'e', 'c', '.', 'c', 'h', 'u', 'n', 'k', ' ', '-', '5']) =
    some [0x0000000000000200000614#_, 0x000001FFFFFFFFFFFFFFF7#_] := by decide

/-- P3's `enc.str "ab\0\0x"`. -/
theorem test_assemble_string : assemble Config.standard
      (['e', 'n', 'c', '.', 's', 't', 'r', ' ', '\x22', 'a', 'b', '\\', '0', '\\', '0', 'x', '\x22']) =
    some [0x00000000000000C4000618#_, 0x0000000000000000000782#_] := by decide

/-! ### Witnesses: states and operands that meet the statements' hypotheses -/

/-- A state with one request pending: V-E4, `enc.chunk {65}`. -/
def asked : State := State.reset.withFetchWord 88 0x412

/-- What one step makes of it. -/
def answered : State := ⟨[], 0x412#_, 0x0020000020#_, [0x0020000020#_]⟩

theorem asked_settled : Safety.Settled asked := by unfold Safety.Settled; decide

theorem step_asked : step asked = .next answered := by rfl

theorem witness_StepKeepsInvariant : Safety.Inv asked ∧ step asked = .next answered :=
  ⟨⟨asked_settled, by decide, by intro r hr; cases hr⟩, step_asked⟩

theorem witness_StepRunsPresentedRequest :
    asked.pending = 0x412#_ :: [] ∧
    exec (decode Config.standard 0x412#_) { asked with req := 0x412#_, pending := [] } =
      .next ⟨[], 0x412#_, 0x0020000020#_, []⟩ ∧
    asked.pending = encode Config.standard (.encChunk 1 [65, 0, 0, 0]) :: [] ∧
    Instr.wf Config.standard (.encChunk 1 [65, 0, 0, 0]) = true ∧ State.reset.pending = [] := by
  refine ⟨by decide, by rfl, by decide, by decide, by decide⟩

theorem witness_FetchWordIsRunNext : (0x412 : Nat) < 2 ^ 88 ∧ decodeTableWord 88 0x412 = some (.encChunk 1 [65, 0, 0, 0]) ∧
    exec (.encChunk 1 [65, 0, 0, 0]) { State.reset with req := BitVec.ofNat _ 0x412 } =
      .next ⟨[], BitVec.ofNat _ 0x412, 0x0020000020#_, []⟩ := by
  refine ⟨by decide, by decide, by rfl⟩

theorem witness_OperationChangesOnlyItsResponse :
    exec (.decChunk 2) State.reset = .next { State.reset with resp := 0x0000002008#_ } ∧
    exec (.decChunk 2) answered = .next { answered with resp := 0x0000002008#_ } := by
  refine ⟨by rfl, by rfl⟩

theorem witness_HeldRequestIsIdempotent :
    answered.pending = [] ∧ step answered = .next answered ∧ Safety.Settled answered := by
  refine ⟨by decide, by rfl, by decide⟩

/-- The full chunk with the largest ordinal, and the empty chunk with unread fields out of range. -/
theorem witness_EncChunkCompletes :
    (Instr.wf Config.standard (.encChunk 4 [0, 255, 1, 255]) = true ∧ ∀ j < 4, [0, 255, 1, 255].getD j 0 < 256) ∧
    (Instr.wf Config.standard (.encChunk 0 [256, 0, 0, 0]) = true ∧ ∀ j < 0, [256, 0, 0, 0].getD j 0 < 256) := by decide

theorem witness_EncChunkAnswersTooLong : Instr.wf Config.standard (.encChunk 5 [256, 0, 0, 0]) = true ∧ 4 < 5 := by decide

theorem witness_EncChunkAnswersLaneWidthExceeded :
    Instr.wf Config.standard (.encChunk 4 [256, 65, 8192, 66]) = true ∧ 256 ≤ [256, 65, 8192, 66].getD 2 0 ∧
    ∀ k < 4, 2 < k → [256, 65, 8192, 66].getD k 0 < 256 := by decide

/-- Both ends of the range: x = 0 (aux 1) and x = 2^32 - 1 (aux 4). -/
theorem witness_DecChunkCompletes :
    Instr.wf Config.standard (.decChunk 0) = true ∧ Instr.wf Config.standard (.decChunk (2 ^ 32 - 1)) = true ∧
    (0 : Int) ≤ 0 ∧ (2 ^ 32 - 1 : Int) < 2 ^ 32 ∧ (auxOf Config.standard 0x1FFFFFFFF0#_).toNat = 4 := by decide

theorem witness_DecChunkAnswersMalformed :
    Instr.wf Config.standard (.decChunk (-1)) = true ∧ Instr.wf Config.standard (.decChunk (2 ^ 32)) = true ∧
    (-1 : Int) < 0 ∧ (2 ^ 32 : Int) ≤ 4294967296 := by decide

/-- Configurations that meet `WF`: the default, P5's, and the smallest; used by every statement over all configurations. -/
theorem witness_WF : Config.standard.WF ∧ (Config.ofKW 2 4).WF ∧ Config.WF ⟨1, 1, 1, 3⟩ := by decide

theorem witness_DecodeInvertsEncode : Config.WF (Config.ofKW 2 4) ∧
    Instr.wf (Config.ofKW 2 4) (.encChunk 3 [0x1FFFFF, 0]) = true ∧
    Instr.wf (Config.ofKW 2 4) (.decChunk (-(2 ^ 63))) = true := by decide

theorem witness_EveryRequestWordIsOneOperation : (0x1#(Config.standard.RQW)).getLsbD 0 = true ∧
    (0x2#(Config.standard.RQW)).getLsbD 0 = false := by decide

/-- Two ENC words that differ in ch_1 alone, which n = 1 leaves unread (§2.2), and two DEC words that differ above din. -/
theorem witness_IgnoredBitsHaveNoEffect :
    opField Config.standard 0x412#_ = false ∧ opField Config.standard 0x0000000000000200000412#_ = false ∧
    countField Config.standard 0x412#_ = countField Config.standard 0x0000000000000200000412#_ ∧
    (∀ j < min (countField Config.standard 0x0000000000000200000412#_) Config.standard.K,
      ordinalField Config.standard 0x412#_ j = ordinalField Config.standard 0x0000000000000200000412#_ j) ∧
    opField Config.standard 0x5#_ = true ∧ opField Config.standard 0x8000000000000000000005#_ = true ∧
    operandField Config.standard 0x5#_ = operandField Config.standard 0x8000000000000000000005#_ := by decide

/-- At most K, one more than K, and fields that fit. -/
theorem witness_ChunkRequestPresentsItsChunk : [1, 2, 3, 4].length ≤ Config.standard.K ∧
    Config.standard.K < [1, 2, 3, 4, 5].length ∧ [1, 2, 3, 4, 5].length < 2 ^ Config.standard.CNTW ∧
    ∀ o ∈ [1, 2, 3, 4, 0x1FFFFF], o < 2 ^ Config.standard.OW := by decide

/-- The second clause needs an ordinal field wider than a lane. -/
theorem witness_FieldsHoldEveryErrorThatCanOccur : Config.standard.WF ∧ Config.standard.W < Config.standard.OW := by decide

theorem witness_AssembledWordsDecodeToTheLine : Config.standard.WF ∧ AsmLine.fits Config.standard (.encStr [97]) = true ∧
    AsmLine.words Config.standard (.encStr [97]) = some [0x612#_] ∧
    AsmLine.fits Config.standard (.decSeq [2 ^ 63]) = false := by decide

/-- The largest ordinal that fits and the smallest that does not. -/
theorem witness_ToLaneAcceptsExactlyWhatFits : 255 < 2 ^ Config.standard.W ∧ 2 ^ Config.standard.W ≤ 256 := by decide

/-- The last bit of the last lane is the last bit of the word. -/
theorem witness_TransposeIsABijection : 7 < Config.standard.W ∧ 3 < Config.standard.K ∧ 31 < Config.standard.N ∧
    7 * Config.standard.K + 3 = 31 := by decide

/-- A configuration whose ordinal fields are as narrow as its lanes. -/
theorem witness_OrdinalRangeTestIsItsHighBits : Config.WF ⟨4, 8, 8, 64⟩ ∧ (⟨4, 8, 8, 64⟩ : Config).OW = (⟨4, 8, 8, 64⟩ : Config).W ∧
    ordinalHighBitSet Config.standard 256#_ = true := by decide

theorem witness_CountCheckComesFirst : Config.standard.K < [256, 0, 0, 0, 0].length ∧
    encStr Config.standard [256] = .error ⟨.laneWidthExceeded, 0, 0⟩ := by decide

/-- Valid chunks: empty, partial, and full with the largest ordinals. For PaddingPutsCharactersInTheirLanes,
ValidChunkEncodes, PaddingLooksLikeOrdinalZero, SourceTextEncodeAgrees, ChunkRoundTripStrips, ChunkIsRecoveredExactlyWhen. -/
theorem witness_valid_chunks : ∀ cs ∈ [[], [0], [98, 0], [255, 255, 255, 255]],
    cs.length ≤ Config.standard.K ∧ ∀ o ∈ cs, o < 2 ^ Config.standard.W := by decide

/-- Two different valid chunks with the same word (C4). -/
theorem witness_EncodeIsInjectiveUpToTrailingZeros :
    encodeChunk Config.standard [98] = encodeChunk Config.standard [98, 0] ∧ ([98] : List Nat) ≠ [98, 0] := by decide

theorem witness_LaneErrorNamesHighestPosition : [256, 65, 8192, 66].length ≤ Config.standard.K ∧
    encodeChunk Config.standard [256, 65, 8192, 66] = .error ⟨.laneWidthExceeded, 2⟩ := by decide

theorem witness_TransposeOfOneLaneOrOneBit : (⟨1, 8, 21, 64⟩ : Config).K = 1 ∧ (⟨4, 1, 21, 64⟩ : Config).W = 1 := by decide

/-- Operands in range at both ends, one whose only non-zero lane is the last, and the two sides out of range. For
InverseTransposeReadsEachBit, StripKeepsUpToTheHighestNonzeroLane, DataLanesBeyondTheCountAreZero, SourceTextDecodeAgrees,
WordRoundTrip, DecodeAcceptsExactlyTheWords, NoOtherErrorIsRaised. -/
theorem witness_words : (∀ x ∈ [0, 0x88888888, 2 ^ 32 - 1], (0 : Int) ≤ x ∧ x < 2 ^ Config.standard.N) ∧
    ∀ x ∈ [-1, 2 ^ 32], ¬((0 : Int) ≤ x ∧ x < 2 ^ Config.standard.N) := by decide

/-- A word made under the default (K, W) that does not fit P5's. -/
theorem witness_OtherConfigurationStillDecodes :
    decodeChunk (Config.ofKW 2 4) (0x0FF00865#32).toNat = .error ⟨.malformedWord, 0⟩ := by decide

/-- A string of one full and one partial chunk, all in range. For ChunksCutTheString, EncStrGivesOneWordPerChunk,
StringRoundTripStripsEachChunk, StringIsRecoveredExactlyWhen, MachineCarriesOutEncStr. -/
theorem witness_strings : Config.standard.WF ∧ (∀ o ∈ [97, 98, 99, 100, 101, 0], o < 2 ^ Config.standard.W) ∧
    (∀ o ∈ [97, 256], o < 2 ^ Config.standard.OW) ∧ State.reset.pending = [] ∧
    (splitChunks Config.standard [97, 98, 99, 100, 101, 0]).length = 2 ∧ 0 + 1 < 2 := by decide

theorem witness_EncStrFailsAtTheFirstBadChunk : Config.standard.WF ∧
    encStr Config.standard [97, 98, 99, 100, 256, 7, 256, 9] = .error ⟨.laneWidthExceeded, 1, 2⟩ ∧
    (StringError.position Config.standard ⟨.laneWidthExceeded, 1, 2⟩) = 6 := by decide

theorem witness_DecSeqJoinsOrFailsAtTheFirst : Config.standard.WF ∧ decSeq Config.standard [0x03300021, 0] = .ok [97, 98, 0] ∧
    (decodeChunk Config.standard 1).map Decoded.chunk = .ok [1] ∧ decSeq Config.standard [1] = .ok [1] ∧
    decSeq Config.standard [0, -1, 2 ^ 32] = .error ⟨.malformedWord, 1, 0⟩ := by decide

theorem witness_MachineCarriesOutDecSeq : State.reset.pending = [] ∧
    ∀ x ∈ [-(2 ^ 63), 0, 2 ^ 63 - 1], operandFits Config.standard x = true := by decide

end Sys2Proof.Tests
end

section
/-! PROOFS. The weights of the bits of lanes and words (R41). -/

namespace Sys2Proof.Machine

/-- The lowest n bits of a number, each times its weight, sum to the number modulo 2^n: each further bit is the next
binary digit. -/
theorem sum_testBit_weights (m n : Nat) : ∑ b ∈ Finset.range n, (m.testBit b).toNat * 2 ^ b = m % 2 ^ n := by
  induction n with
  | zero => simp [Nat.mod_one]
  | succ n ih => rw [Finset.sum_range_succ, ih, Nat.toNat_testBit, Nat.mod_pow_succ, Nat.mul_comm]

/-- The value of a bit vector of any width is the weighted sum of its bits: nothing is cut off modulo 2^n. -/
theorem toNat_eq_sum_bit_weights {n : Nat} (v : BitVec n) :
    v.toNat = ∑ b ∈ Finset.range n, (v.getLsbD b).toNat * 2 ^ b :=
  calc v.toNat = v.toNat % 2 ^ n := (Nat.mod_eq_of_lt v.isLt).symm
    _ = ∑ b ∈ Finset.range n, (v.toNat.testBit b).toNat * 2 ^ b := (sum_testBit_weights v.toNat n).symm
    _ = ∑ b ∈ Finset.range n, (v.getLsbD b).toNat * 2 ^ b := by simp only [BitVec.testBit_toNat]

/-- The ordinal of a lane is the weighted sum of its bits (R41, R83). -/
theorem fromLane_eq_sum_bit_weights (c : Config) (L : Lane c.W) :
    fromLane c L = ∑ q ∈ Finset.range c.W, (L.getLsbD q).toNat * 2 ^ q := by
  rw [fromLane, toNat_eq_sum_bit_weights]

/-- Settles O27: a lane's ordinal and a word's value are both the value of a bit vector, of width W and N. -/
theorem bitsHaveTheirWeights : Obligations.BitsHaveTheirWeights := by
  unfold Obligations.BitsHaveTheirWeights
  exact fun c => ⟨fromLane_eq_sum_bit_weights c, toNat_eq_sum_bit_weights⟩

end Sys2Proof.Machine
end

section
/-! PROOFS. The lane of an ordinal: what toLane accepts, and the two ends of its range (R80, R82). -/

namespace Sys2Proof.Machine

/-- An accepted ordinal is the value of its lane: nothing was reduced modulo 2^W (R82). -/
theorem toNat_of_toLane {c : Config} {o : Nat} {L : Lane c.W} (h : toLane c o = .ok L) : L.toNat = o := by
  rcases Nat.lt_or_ge o (2 ^ c.W) with hfits | hwide
  · rw [toLane_ok hfits] at h
    cases h
    rw [BitVec.toNat_ofNat, Nat.mod_eq_of_lt hfits]
  · rw [toLane_error hwide] at h
    cases h

/-- The ordinal 0 has the zero lane. -/
theorem toLane_zero (c : Config) : toLane c 0 = .ok 0 :=
  toLane_ok (Nat.two_pow_pos c.W)

/-- The largest ordinal that fits has the all-ones lane: both have the value 2^W - 1. -/
theorem toLane_max (c : Config) : toLane c (2 ^ c.W - 1) = .ok (BitVec.allOnes c.W) := by
  have hlane := toLane_ok (c := c) (Nat.sub_one_lt (Nat.two_pow_pos c.W).ne')
  rw [hlane, BitVec.eq_of_toNat_eq ((toNat_of_toLane hlane).trans BitVec.toNat_allOnes.symm)]

/-- Settles O25: the range check splits the ordinals at 2^W; below it the lane's value is the ordinal, and so are its
bits. -/
theorem toLaneAcceptsExactlyWhatFits : Obligations.ToLaneAcceptsExactlyWhatFits := by
  unfold Obligations.ToLaneAcceptsExactlyWhatFits
  intro c o
  refine ⟨fun hfits => ?_, toLane_error, toLane_zero c, toLane_max c⟩
  have hvalue := toNat_of_toLane (toLane_ok hfits)
  exact ⟨_, toLane_ok hfits, hvalue, fun q _ => by rw [← BitVec.testBit_toNat, hvalue]⟩

end Sys2Proof.Machine
end

section
/-! PROOFS. The transpose of ENC_CHUNK moves each lane bit to one word position, and the de-interleave moves it back
(R103, R105). -/

namespace Sys2Proof.Machine

/-- The strided numbering reaches every position below a*b. -/
theorem exists_stride {a b k : Nat} (hk : k < a * b) : ∃ q < b, ∃ j < a, q * a + j = k :=
  have ha : 0 < a := Nat.pos_of_mul_pos_right (Nat.zero_lt_of_lt hk)
  ⟨k / a, Nat.div_lt_of_lt_mul hk, k % a, Nat.mod_lt k ha, Nat.div_add_mod' k a⟩

/-- The strided numbering reaches no position twice. -/
theorem stride_inj {a q j q' j' : Nat} (hj : j < a) (hj' : j' < a) (h : q * a + j = q' * a + j') : q = q' ∧ j = j' := by
  obtain ⟨hmod, hdiv⟩ := stride_split (q := q) hj
  obtain ⟨hmod', hdiv'⟩ := stride_split (q := q') hj'
  rw [h] at hmod hdiv
  exact ⟨hdiv.symm.trans hdiv', hmod.symm.trans hmod'⟩

/-- Every position below a*b has exactly one row below b and column below a (R105). -/
theorem existsUnique_stride {a b k : Nat} (hk : k < a * b) :
    ∃! qj : Nat × Nat, qj.1 < b ∧ qj.2 < a ∧ qj.1 * a + qj.2 = k := by
  obtain ⟨q, hq, j, hj, hqj⟩ := exists_stride hk
  refine ⟨(q, j), ⟨hq, hj, hqj⟩, ?_⟩
  rintro ⟨q', j'⟩ ⟨-, hj', hqj'⟩
  obtain ⟨rfl, rfl⟩ := stride_inj hj' hj (hqj'.trans hqj.symm)
  rfl

/-- Text numbering counts positions from the most significant end: reversing a strided position reverses its row and its
column (R103). -/
theorem stride_reverse {a b p i : Nat} (hp : p < b) (hi : i < a) :
    a * b - 1 - (p * a + i) = (b - 1 - p) * a + (a - 1 - i) := by
  have htotal : a * b = (b - 1 - p) * a + p * a + a :=
    calc a * b = ((b - 1 - p) + p + 1) * a := by rw [Nat.mul_comm]; congr 1; omega
      _ = (b - 1 - p) * a + p * a + a := by ring
  omega

/-- Bit q*K + j of the transposed word is bit q of lane j, for a source position j of the chunk (R103). -/
theorem getLsbD_interleave_lane (c : Config) (P : Lanes c) {q : Nat} (hq : q < c.W) (j : Fin c.K) :
    (interleave c P).getLsbD (q * c.K + j.val) = (P j).getLsbD q := by
  rw [getLsbD_interleave c P hq j.isLt, laneAt_val]

/-- Settles O31: word positions name their row q and column j, and the source's text position is that position
reversed. -/
theorem transposeMovesEachBit : Obligations.TransposeMovesEachBit := by
  unfold Obligations.TransposeMovesEachBit
  refine fun c P => ⟨fun q hq j => getLsbD_interleave_lane c P hq j, fun p hp i hi => ?_⟩
  have hreverse : c.N - 1 - (p * c.K + i) = (c.W - 1 - p) * c.K + (c.K - 1 - i) := stride_reverse hp hi
  rw [hreverse, getLsbD_interleave c P (by omega) (by omega)]

/-- The de-interleave undoes the transpose (R105). -/
theorem deinterleave_interleave (c : Config) (P : Lanes c) : deinterleave c (interleave c P) = P := by
  funext j
  apply BitVec.eq_of_getLsbD_eq
  intro q hq
  rw [getLsbD_deinterleave c _ j hq, getLsbD_interleave_lane c P hq j]

/-- The transpose undoes the de-interleave (R105). -/
theorem interleave_deinterleave (c : Config) (w : EncodedWord c) : interleave c (deinterleave c w) = w := by
  apply BitVec.eq_of_getLsbD_eq
  intro b hb
  obtain ⟨q, hq, j, hj, rfl⟩ := exists_stride hb
  rw [getLsbD_interleave_lane c _ hq ⟨j, hj⟩, getLsbD_deinterleave c w ⟨j, hj⟩ hq]

/-- The transpose is one-to-one and onto (R105). -/
theorem interleave_bijective (c : Config) : Function.Bijective (interleave c) :=
  Function.bijective_iff_has_inverse.mpr ⟨deinterleave c, deinterleave_interleave c, interleave_deinterleave c⟩

/-- Only word bit q*K + j follows bit q of lane j: the lanes of the word 2^(q*K + j) set that lane bit and no other word
bit. -/
theorem interleave_bit_iff (c : Config) {q b : Nat} (hq : q < c.W) (j : Fin c.K) (hb : b < c.N) :
    (∀ P : Lanes c, (interleave c P).getLsbD b = (P j).getLsbD q) ↔ b = q * c.K + j.val := by
  constructor
  · intro hfollows
    have hpos : q * c.K + j.val < c.N := stride_lt hq j.isLt
    have hbit := hfollows (deinterleave c (BitVec.twoPow c.N (q * c.K + j.val)))
    rw [interleave_deinterleave, getLsbD_deinterleave c _ j hq] at hbit
    simpa [BitVec.getLsbD_twoPow, hb, hpos, eq_comm] using hbit
  · rintro rfl P
    exact getLsbD_interleave_lane c P hq j

/-- Settles O32: the de-interleave is a two-sided inverse, and the positions are numbered without gap or repetition. -/
theorem transposeIsABijection : Obligations.TransposeIsABijection := by
  unfold Obligations.TransposeIsABijection
  exact fun c => ⟨interleave_bijective c, deinterleave_interleave c, interleave_deinterleave c,
    fun _ hb => existsUnique_stride hb,
    fun _ hq j => ⟨stride_lt hq j.isLt, fun _ hb => interleave_bit_iff c hq j hb⟩⟩

end Sys2Proof.Machine
end

section
/-! PROOFS. ChunkTooLong: ENC_CHUNK raises it for more than K characters, and the chunks of a string never have them
(R101). -/

namespace Sys2Proof.Machine

/-- A chunk of at most K characters never raises ChunkTooLong. -/
theorem encodeChunk_code_ne_chunkTooLong {c : Config} {cs : List Nat} {r : Raised} (hlen : cs.length ≤ c.K)
    (hr : encodeChunk c cs = .error r) : r.code ≠ .chunkTooLong := by
  rcases encodeChunk_cases c cs with ⟨hlong, -⟩ | ⟨-, j, -, -, -, hbad⟩ | ⟨-, -, hvalid⟩
  · omega
  · cases hbad.symm.trans hr
    simp
  · cases hvalid.symm.trans hr

/-- An error of ENCSTR is the error that ENC_CHUNK raises for one of the string's chunks (R142). -/
theorem encStr_error_of_chunk {c : Config} {s : List Nat} {e : StringError} (he : encStr c s = .error e) :
    ∃ m, encodeChunk c (chunkAt c s m) = .error ⟨e.code, e.idx⟩ := by
  obtain ⟨m, hm, hraised, -, -⟩ := (collect_error _ _ _).mp he
  rw [List.getElem_map, split_get] at hraised
  exact ⟨m, hraised⟩

/-- Settles O29: the count check answers before the ordinals are looked at, and a string is cut into chunks that pass
it. -/
theorem countCheckComesFirst : Obligations.CountCheckComesFirst := by
  unfold Obligations.CountCheckComesFirst
  refine ⟨fun c cs hlong => ?_, fun c s e _ he => ?_⟩
  · rw [block, encChunk, encodeChunk_tooLong hlong, encResponse]
  · obtain ⟨m, hm⟩ := encStr_error_of_chunk he
    exact encodeChunk_code_ne_chunkTooLong (chunkAt_length c s m) hm

end Sys2Proof.Machine
end

section
/-! PROOFS. The chunks of a string are consecutive slices: together they are the string, and only the last can be short
(R141). -/

namespace Sys2Proof.Machine

/-- The first n chunks together are the first n*K characters. -/
theorem flatten_map_chunkAt (c : Config) (s : List Nat) (n : Nat) :
    ((List.range n).map (chunkAt c s)).flatten = s.take (n * c.K) := by
  induction n with
  | zero => simp
  | succ n ih =>
    rw [List.range_succ, List.map_append, List.flatten_append, ih, Nat.succ_mul, List.take_add]
    simp [chunkAt]

/-- The chunks of a string concatenate to it: there are enough of them to cover it. -/
theorem flatten_splitChunks {c : Config} (hK : 1 ≤ c.K) (s : List Nat) : (splitChunks c s).flatten = s := by
  rw [splitChunks, flatten_map_chunkAt, List.take_of_length_le (chunkCount_mul c hK s.length).1]

/-- Every counted chunk begins inside the string, so it has a character. -/
theorem chunkAt_length_pos {c : Config} (hK : 1 ≤ c.K) {s : List Nat} {m : Nat} (hm : m < chunkCount c s.length) :
    1 ≤ (chunkAt c s m).length := by
  have hstart : m * c.K < s.length := ((chunkCount_mul c hK s.length).2 m).mp hm
  rw [chunkAt_len]
  omega

/-- A chunk before another counted chunk is full: the next one begins inside the string. -/
theorem chunkAt_length_of_not_last {c : Config} (hK : 1 ≤ c.K) {s : List Nat} {m : Nat}
    (hnext : m + 1 < chunkCount c s.length) : (chunkAt c s m).length = c.K := by
  have hstart : (m + 1) * c.K < s.length := ((chunkCount_mul c hK s.length).2 (m + 1)).mp hnext
  rw [Nat.succ_mul] at hstart
  rw [chunkAt_len]
  omega

/-- Settles O50: chunk m is the slice of K characters from m*K on, and the count is the number of slices that begin
inside the string. -/
theorem chunksCutTheString : Obligations.ChunksCutTheString := by
  unfold Obligations.ChunksCutTheString
  intro c s hwf
  have hK : 1 ≤ c.K := hwf.1
  refine ⟨flatten_splitChunks hK s, split_length c s, fun m hm => ?_⟩
  rw [split_get, split_length]
  rw [split_length] at hm
  have hle : (chunkAt c s m).length ≤ c.K := chunkAt_length c s m
  refine ⟨?_, chunkAt_length_pos hK hm, hle, chunkAt_length_of_not_last hK,
    fun k hk => chunkAt_getD c s m k (hk.trans_le hle), fun herr => ?_⟩
  · rw [chunkAt_len]
    omega
  · exact encodeChunk_code_ne_chunkTooLong hle herr rfl

end Sys2Proof.Machine
end

section
/-! PROOFS. Each operation raises its own errors alone, and bit 0 of a request word always names one of the two
operations (R66, R164). -/

namespace Sys2Proof.Machine

/-- An error response of ENC_CHUNK is an error its pseudocode raises (R28). -/
theorem block_enc_error_iff {c : Config} {cs : List Nat} {e : ErrCode} {k : Nat} :
    block c (.enc cs) = .error e k ↔ encodeChunk c cs = .error ⟨e, k⟩ := by
  rw [block, encChunk]
  rcases encodeChunk c cs with ⟨code, idx⟩ | w <;> simp [encResponse]

/-- A word response of ENC_CHUNK is the word its pseudocode returns (R28). -/
theorem block_enc_word_iff {c : Config} {cs : List Nat} {w : EncodedWord c} :
    block c (.enc cs) = .word w ↔ encodeChunk c cs = .ok w := by
  rw [block, encChunk]
  cases encodeChunk c cs <;> simp [encResponse]

/-- An error response of DEC_CHUNK is an error its pseudocode raises (R28). -/
theorem block_dec_error_iff {c : Config} {x : Int} {e : ErrCode} {k : Nat} :
    block c (.dec x) = .error e k ↔ decodeChunk c x = .error ⟨e, k⟩ := by
  rw [block, decChunk]
  rcases decodeChunk c x with ⟨code, idx⟩ | d <;> simp [decResponse]

/-- A chunk response of DEC_CHUNK is the count and lanes its pseudocode returns (R28). -/
theorem block_dec_chars_iff {c : Config} {x : Int} {count : Nat} {P : Lanes c} :
    block c (.dec x) = .chars count P ↔ decodeChunk c x = .ok ⟨count, P⟩ := by
  rw [block, decChunk]
  rcases decodeChunk c x with r | ⟨n, Q⟩ <;> simp [decResponse]

/-- ENC_CHUNK raises the errors of the count check and the range check alone. -/
theorem encodeChunk_error_code {c : Config} {cs : List Nat} {r : Raised} (hr : encodeChunk c cs = .error r) :
    r.code = .chunkTooLong ∨ r.code = .laneWidthExceeded := by
  rcases encodeChunk_cases c cs with ⟨-, hlong⟩ | ⟨-, j, -, -, -, hbad⟩ | ⟨-, -, hvalid⟩
  · cases hlong.symm.trans hr
    exact .inl rfl
  · cases hbad.symm.trans hr
    exact .inr rfl
  · cases hvalid.symm.trans hr

/-- ENC_CHUNK returns a word exactly for a chunk that passes both checks. -/
theorem exists_encodeChunk_ok_iff {c : Config} {cs : List Nat} :
    (∃ w, encodeChunk c cs = .ok w) ↔ cs.length ≤ c.K ∧ ∀ o ∈ cs, o < 2 ^ c.W := by
  refine ⟨fun ⟨w, hw⟩ => ?_, fun ⟨hlen, hfit⟩ => ⟨_, encodeChunk_valid hlen hfit⟩⟩
  rcases encodeChunk_cases c cs with ⟨-, hlong⟩ | ⟨-, j, -, -, -, hbad⟩ | ⟨hlen, hfit, -⟩
  · cases hlong.symm.trans hw
  · cases hbad.symm.trans hw
  · exact ⟨hlen, hfit⟩

/-- DEC_CHUNK raises the error of the range check alone. -/
theorem decodeChunk_error_code {c : Config} {x : Int} {r : Raised} (hr : decodeChunk c x = .error r) :
    r.code = .malformedWord := by
  rcases decodeChunk_cases c x with ⟨-, hbad⟩ | ⟨-, -, hok⟩
  · cases hbad.symm.trans hr
    rfl
  · cases hok.symm.trans hr

/-- DEC_CHUNK returns a chunk exactly for an operand that passes the range check, whatever its lanes hold (R83). -/
theorem exists_decodeChunk_ok_iff {c : Config} {x : Int} :
    (∃ d, decodeChunk c x = .ok d) ↔ 0 ≤ x ∧ x < 2 ^ c.N := by
  refine ⟨fun ⟨d, hd⟩ => ?_, fun ⟨hlow, hhigh⟩ => ⟨_, decodeChunk_ok hlow hhigh⟩⟩
  rcases decodeChunk_cases c x with ⟨-, hbad⟩ | ⟨hlow, hhigh, -⟩
  · cases hbad.symm.trans hd
  · exact ⟨hlow, hhigh⟩

/-- A word with bit 0 clear is an ENC_CHUNK of its count and ordinal fields (R61). -/
theorem decode_of_bit0_clear {c : Config} {w : RequestWord c} (h0 : w.getLsbD 0 = false) :
    decode c w = .encChunk (countField c w) ((List.range c.K).map (ordinalField c w)) := by
  simp [decode, opField, h0]

/-- A word with bit 0 set is a DEC_CHUNK of its operand field (R62). -/
theorem decode_of_bit0_set {c : Config} {w : RequestWord c} (h0 : w.getLsbD 0 = true) :
    decode c w = .decChunk (operandField c w) := by
  simp [decode, opField, h0]

/-- Bit 0 alone says whether a request word presents an encode or a decode request: there is no third kind (R66). -/
theorem request_kind_iff_bit0 (c : Config) (w : RequestWord c) :
    ((∃ cs, requestOf c (decode c w) = .enc cs) ↔ w.getLsbD 0 = false) ∧
    ((∃ x, requestOf c (decode c w) = .dec x) ↔ w.getLsbD 0 = true) := by
  cases h0 : w.getLsbD 0 with
  | false => simp [decode_of_bit0_clear h0, requestOf]
  | true => simp [decode_of_bit0_set h0, requestOf]

/-- Settles O48: both operations by the outcomes of their checks, the request words by bit 0. -/
theorem noOtherErrorIsRaised : Obligations.NoOtherErrorIsRaised := by
  unfold Obligations.NoOtherErrorIsRaised
  refine fun c => ⟨fun cs e k he => ?_, fun cs => ?_, fun x e k he => ?_, fun x => ?_,
    fun w => ⟨rfl, request_kind_iff_bit0 c w⟩⟩
  · exact encodeChunk_error_code (block_enc_error_iff.mp he)
  · simp only [block_enc_word_iff, exists_encodeChunk_ok_iff]
  · exact decodeChunk_error_code (block_dec_error_iff.mp he)
  · rw [← exists_decodeChunk_ok_iff]
    simp only [block_dec_chars_iff]
    exact ⟨fun ⟨_, _, hd⟩ => ⟨_, hd⟩, fun ⟨⟨_, _⟩, hd⟩ => ⟨_, _, hd⟩⟩

end Sys2Proof.Machine
end

section
/-! PROOFS. What the response bus carries for each answer of the block, and that it is always legal (R165, R166). -/

namespace Sys2Proof.Machine

/-- A word stands in the data field, with err and aux 0 (R165). -/
@[simp] theorem ports_word {c : Config} (w : EncodedWord c) : (Response.word w).ports = ⟨0, 0, w⟩ := rfl

/-- A decoded chunk has its count in aux and its lanes packed in data (R64). -/
@[simp] theorem ports_chars {c : Config} (count : Nat) (P : Lanes c) :
    (Response.chars count P).ports = ⟨0, BitVec.ofNat c.CNTW count, linearPack c P⟩ := rfl

/-- An error has its code in err, its index in aux, and data 0 (R165, R166). -/
@[simp] theorem ports_error {c : Config} (e : ErrCode) (idx : Nat) :
    (Response.error (c := c) e idx).ports = ⟨e.code, BitVec.ofNat c.CNTW idx, 0⟩ := rfl

/-- Everything the block answers to an encode request (R100). -/
theorem block_enc_cases (c : Config) (cs : List Nat) :
    (c.K < cs.length ∧ block c (.enc cs) = .error .chunkTooLong 0) ∨
    (cs.length ≤ c.K ∧ ∃ j < cs.length, block c (.enc cs) = .error .laneWidthExceeded j) ∨
    (cs.length ≤ c.K ∧ (∀ o ∈ cs, o < 2 ^ c.W) ∧ block c (.enc cs) = .word (interleave c (padLanes c cs))) := by
  rcases encodeChunk_cases c cs with ⟨hlong, h⟩ | ⟨hlen, j, hj, -, -, h⟩ | ⟨hlen, hfit, h⟩
  · exact .inl ⟨hlong, block_enc_error_iff.mpr h⟩
  · exact .inr (.inl ⟨hlen, j, hj, block_enc_error_iff.mpr h⟩)
  · exact .inr (.inr ⟨hlen, hfit, block_enc_word_iff.mpr h⟩)

/-- Everything the block answers to a decode request (R120, R123). -/
theorem block_dec_cases (c : Config) (x : Int) :
    (¬(0 ≤ x ∧ x < 2 ^ c.N) ∧ block c (.dec x) = .error .malformedWord 0) ∨
    (0 ≤ x ∧ x < 2 ^ c.N ∧ ∃ count P, (1 ≤ c.K → count ≤ c.K) ∧ block c (.dec x) = .chars count P) := by
  rcases decodeChunk_cases c x with ⟨hout, h⟩ | ⟨hlow, hhigh, h⟩
  · exact .inl ⟨hout, block_dec_error_iff.mpr h⟩
  · exact .inr ⟨hlow, hhigh, _, _, (keptCount_spec c _).2.1, block_dec_chars_iff.mpr h⟩

/-- The table of R165 and R166, answer by answer: the response of every request is legal. -/
theorem legalResponse_block {c : Config} (hK : 1 ≤ c.K) (r : Request) : Safety.LegalResponse c (block c r).bus := by
  simp only [Safety.LegalResponse, errOf_response, auxOf_response, dataOf_response]
  cases r with
  | enc cs =>
    rcases block_enc_cases c cs with ⟨-, h⟩ | ⟨hlen, j, hj, h⟩ | ⟨-, -, h⟩
    · simp [h, ErrCode.code]
    · have haux := toNat_aux (c := c) (n := j) (by omega)
      rw [h, ports_error, haux]
      simp only [ErrCode.code]
      refine ⟨by simp, by simp, fun _ => by omega, by simp, by simp⟩
    · simp [h]
  | dec x =>
    rcases block_dec_cases c x with ⟨-, h⟩ | ⟨-, -, count, P, hcount, h⟩
    · simp [h, ErrCode.code]
    · rw [h, ports_chars, toNat_aux (hcount hK)]
      simpa using hcount hK

end Sys2Proof.Machine
end

section
/-! PROOFS. Steps of the machine: the invariant, and what a step and a run over a queue leave behind (R21, R25, R27,
R44). -/

namespace Sys2Proof.Machine

/-- The response to a request word is legal in the default block. -/
theorem legalResponse_respond (w : RequestWord Config.standard) :
    Safety.LegalResponse Config.standard (respond Config.standard w) :=
  legalResponse_block (by decide) _

/-- Settles O1: the held request 0 presents the empty chunk, whose response is the all-zero word. -/
theorem resetMeetsInvariant : Obligations.ResetMeetsInvariant := by
  unfold Obligations.ResetMeetsInvariant
  have hsettled : Safety.Settled State.reset := by unfold Safety.Settled; decide
  have hlegal : Safety.LegalResponse Config.standard State.reset.resp := by
    rw [hsettled]
    exact legalResponse_respond _
  exact ⟨⟨hsettled, hlegal, fun r hr => by cases hr⟩, rfl, rfl, rfl⟩

/-- Settles O2: a step leaves the response of the request that stands on the bus, and the host reads at most that one
beside those it had. -/
theorem stepKeepsInvariant : Obligations.StepKeepsInvariant := by
  unfold Obligations.StepKeepsInvariant
  rintro s t ⟨-, -, hread⟩ hstep
  rcases step_cases hstep with ⟨-, rfl⟩ | ⟨w, rest, -, rfl⟩
  · exact ⟨rfl, legalResponse_respond _, hread⟩
  · refine ⟨rfl, legalResponse_respond _, fun r hr => ?_⟩
    rcases List.mem_append.mp hr with hold | hnew
    · exact hread r hold
    · rw [List.mem_singleton.mp hnew]
      exact legalResponse_respond w

/-- Settles O3: both kinds of step answer a next state. -/
theorem everyStepGoesOn : Obligations.EveryStepGoesOn := by
  unfold Obligations.EveryStepGoesOn
  intro s
  cases hp : s.pending with
  | nil => exact ⟨_, step_of_idle hp⟩
  | cons w rest => exact ⟨_, step_of_pending hp⟩

/-- With a request pending, a step is the run of any instruction that presents the same request as the word, followed
by the host's read. -/
theorem step_of_exec {s t : State} {w : RequestWord Config.standard} {rest : List (RequestWord Config.standard)}
    {i : Instr} (hp : s.pending = w :: rest) (hi : decode Config.standard w = i)
    (hexec : exec i { s with req := w, pending := rest } = .next t) :
    step s = .next { t with responses := t.responses ++ [t.resp] } := by
  subst hi
  rw [exec_eq] at hexec
  cases hexec
  exact step_of_pending hp

/-- Settles O5: the placed word is the first of the queue, and the step decodes it as the table does. -/
theorem fetchWordIsRunNext : Obligations.FetchWordIsRunNext := by
  unfold Obligations.FetchWordIsRunNext
  intro s t w i hw hi hexec
  have hword : requestOfTableWord Config.standard 88 w = BitVec.ofNat _ w := by
    rw [requestOfTableWord, Nat.mod_eq_of_lt hw]
  rw [decodeTableWord, if_pos (by decide), hword, Option.some.injEq] at hi
  refine step_of_exec ?_ hi hexec
  rw [State.withFetchWord_pending, hword]

/-- Settles O6: an operation is a drive of the response bus with a value that no state enters. -/
theorem operationChangesOnlyItsResponse : Obligations.OperationChangesOnlyItsResponse := by
  unfold Obligations.OperationChangesOnlyItsResponse
  intro i s t h
  rw [exec_eq] at h
  cases h
  refine ⟨rfl, rfl, rfl, fun s' t' h' => ?_⟩
  rw [exec_eq] at h'
  cases h'
  rfl

/-- Settles O7: an idle step drives the bus with the response of the held request, which it does not change. -/
theorem heldRequestIsIdempotent : Obligations.HeldRequestIsIdempotent := by
  unfold Obligations.HeldRequestIsIdempotent
  intro s t hidle hstep
  rw [step_of_idle hidle] at hstep
  cases hstep
  refine ⟨step_of_idle hidle, fun hsettled => ?_⟩
  rw [State.driveBus, ← hsettled]

/-- A run of one step more begins with that step. -/
theorem run_succ_of_next {M : Host.Core} {k : Nat} {s t : M.State} (h : M.step s = .next t) :
    M.run (k + 1) s = M.run k t := by
  rw [Host.Core.run, h]

/-- One step per pending request empties any queue and reads each request's own response, in order. -/
theorem run_queue (ws : List (RequestWord Config.standard)) (s : State) (hp : s.pending = ws) :
    ∃ t : State, Host.Core.run core ws.length s = .next t ∧ t.pending = [] ∧
      t.responses = s.responses ++ ws.map (respond Config.standard) ∧ t.req = ws.getLastD s.req := by
  induction ws generalizing s with
  | nil => exact ⟨s, rfl, hp, by simp, rfl⟩
  | cons w rest ih =>
    obtain ⟨t, hrun, hpending, hresponses, hreq⟩ :=
      ih (((s.present w rest).driveBus (respond Config.standard w)).readResponse) rfl
    have hstep : core.step s = .next (((s.present w rest).driveBus (respond Config.standard w)).readResponse) :=
      step_of_pending hp
    refine ⟨t, ?_, hpending, ?_, ?_⟩
    · exact (run_succ_of_next hstep).trans hrun
    · simpa using hresponses
    · rw [hreq, List.getLastD_cons]
      rfl

/-- Settles O8: the run over a state's own queue. -/
theorem queueGivesEachRequestItsOwnResponse : Obligations.QueueGivesEachRequestItsOwnResponse := by
  unfold Obligations.QueueGivesEachRequestItsOwnResponse
  exact fun s => run_queue s.pending s rfl

end Sys2Proof.Machine
end

section
/-! PROOFS. The encoder puts each field where the decoder reads it (R60 to R62, R65). -/

namespace Sys2Proof.Machine

/-- Two fields side by side fill exactly the sum of their widths. -/
theorem add_two_pow_mul_lt {a b x y : Nat} (hx : x < 2 ^ a) (hy : y < 2 ^ b) : x + 2 ^ a * y < 2 ^ (a + b) :=
  calc x + 2 ^ a * y < 2 ^ a + 2 ^ a * y := Nat.add_lt_add_right hx _
    _ = 2 ^ a * (y + 1) := by ring
    _ ≤ 2 ^ a * 2 ^ b := Nat.mul_le_mul_left _ hy
    _ = 2 ^ (a + b) := (pow_add 2 a b).symm

/-- The packed ordinals fill exactly their fields. -/
theorem packOrdinals_lt (ow : Nat) (os : List Nat) : packOrdinals ow os < 2 ^ (os.length * ow) := by
  induction os with
  | nil => simp [packOrdinals]
  | cons o os ih =>
    rw [packOrdinals, List.length_cons, Nat.succ_mul, Nat.add_comm (os.length * ow)]
    exact add_two_pow_mul_lt (Nat.mod_lt _ (Nat.two_pow_pos ow)) ih

/-- Bit j*OW + k of the packed ordinals is bit k of ordinal j (R42, R61). -/
theorem testBit_packOrdinals {ow : Nat} (os : List Nat) (j : Nat) {k : Nat} (hk : k < ow) :
    (packOrdinals ow os).testBit (j * ow + k) = (os.getD j 0).testBit k := by
  induction os generalizing j with
  | nil => simp [packOrdinals]
  | cons o os ih =>
    have hlow : o % 2 ^ ow < 2 ^ ow := Nat.mod_lt _ (Nat.two_pow_pos ow)
    rw [packOrdinals, Nat.add_comm, Nat.testBit_two_pow_mul_add _ hlow]
    cases j with
    | zero => simp [hk]
    | succ j =>
      have hhigh : ¬ (j + 1) * ow + k < ow := by rw [Nat.succ_mul]; omega
      have hpos : (j + 1) * ow + k - ow = j * ow + k := by rw [Nat.succ_mul]; omega
      rw [if_neg hhigh, hpos, ih, List.getD_cons_succ]

/-- The value of an encode request: opcode 0, the count, the packed ordinals; the bus is wide enough (R60, R61). -/
theorem toNat_encode_enc {c : Config} {n : Nat} {chs : List Nat} (hwf : Instr.wf c (.encChunk n chs) = true) :
    (encode c (.encChunk n chs)).toNat = 2 * (n + 2 ^ c.CNTW * packOrdinals c.OW chs) := by
  obtain ⟨hn, hlen, -⟩ := wf_enc.mp hwf
  have hfields : n + 2 ^ c.CNTW * packOrdinals c.OW chs < 2 ^ (c.CNTW + c.K * c.OW) :=
    add_two_pow_mul_lt hn (hlen ▸ packOrdinals_lt c.OW chs)
  have hbus : 2 ^ (1 + (c.CNTW + c.K * c.OW)) ≤ 2 ^ c.RQW :=
    Nat.pow_le_pow_right (by omega) (by rw [Config.RQW]; omega)
  rw [pow_add] at hbus
  rw [encode, List.take_of_length_le hlen.le, Nat.mod_eq_of_lt hn, BitVec.toNat_ofNat, Nat.mod_eq_of_lt (by omega)]

/-- The value of a decode request: opcode 1 and the operand; the bus is wide enough (R60, R62). -/
theorem toNat_encode_dec (c : Config) (x : Int) :
    (encode c (.decChunk x)).toNat = 1 + 2 * (BitVec.ofInt c.XW x).toNat := by
  have hbus : 2 ^ (1 + c.XW) ≤ 2 ^ c.RQW := Nat.pow_le_pow_right (by omega) (by rw [Config.RQW]; omega)
  have hfield := (BitVec.ofInt c.XW x).isLt
  rw [pow_add] at hbus
  rw [encode, BitVec.toNat_ofNat, Nat.mod_eq_of_lt (by omega)]

/-- Bit b of an encode request, by the field it stands in: opcode, count, ordinals (R61). -/
theorem getLsbD_encode_enc {c : Config} {n : Nat} {chs : List Nat} (hwf : Instr.wf c (.encChunk n chs) = true) (b : Nat) :
    (encode c (.encChunk n chs)).getLsbD b =
      if b = 0 then false
      else if b - 1 < c.CNTW then n.testBit (b - 1)
      else (packOrdinals c.OW chs).testBit (b - 1 - c.CNTW) := by
  rw [← BitVec.testBit_toNat, toNat_encode_enc hwf]
  cases b with
  | zero => simp
  | succ b =>
    rw [Nat.testBit_succ, Nat.mul_div_cancel_left _ (by omega), Nat.add_comm n,
      Nat.testBit_two_pow_mul_add _ (wf_enc.mp hwf).1]
    rfl

/-- Bit b of a decode request: the opcode, then the two's-complement operand, whose bits from XW on are 0 (R62). -/
theorem getLsbD_encode_dec (c : Config) (x : Int) (b : Nat) :
    (encode c (.decChunk x)).getLsbD b = if b = 0 then true else (BitVec.ofInt c.XW x).getLsbD (b - 1) := by
  rw [← BitVec.testBit_toNat, toNat_encode_dec]
  cases b with
  | zero => simp
  | succ b =>
    have hhalf : (1 + 2 * (BitVec.ofInt c.XW x).toNat) / 2 = (BitVec.ofInt c.XW x).toNat := by omega
    rw [Nat.testBit_succ, hhalf, BitVec.testBit_toNat]
    rfl

/-- Bit k of the count field of an encoded chunk. -/
theorem getLsbD_encode_count {c : Config} {n : Nat} {chs : List Nat} (hwf : Instr.wf c (.encChunk n chs) = true)
    {k : Nat} (hk : k < c.CNTW) : (encode c (.encChunk n chs)).getLsbD (1 + k) = n.testBit k := by
  rw [getLsbD_encode_enc hwf, if_neg (by omega), if_pos (by omega), Nat.add_sub_cancel_left]

/-- Bit k of ordinal field j of an encoded chunk. -/
theorem getLsbD_encode_ordinal {c : Config} {n : Nat} {chs : List Nat} (hwf : Instr.wf c (.encChunk n chs) = true)
    (j : Nat) {k : Nat} (hk : k < c.OW) :
    (encode c (.encChunk n chs)).getLsbD (c.CNTW + j * c.OW + 1 + k) = (chs.getD j 0).testBit k := by
  have hpos : c.CNTW + j * c.OW + 1 + k - 1 - c.CNTW = j * c.OW + k := by omega
  rw [getLsbD_encode_enc hwf, if_neg (by omega), if_neg (by omega), hpos, testBit_packOrdinals chs j hk]

/-- The ignored bits above the fields of an encoded chunk are 0 (log entry 20). -/
theorem getLsbD_encode_above {c : Config} {n : Nat} {chs : List Nat} (hwf : Instr.wf c (.encChunk n chs) = true)
    {b : Nat} (hb : c.CNTW + c.K * c.OW + 1 ≤ b) : (encode c (.encChunk n chs)).getLsbD b = false := by
  obtain ⟨-, hlen, -⟩ := wf_enc.mp hwf
  have hpack : packOrdinals c.OW chs < 2 ^ (c.K * c.OW) := hlen ▸ packOrdinals_lt c.OW chs
  rw [getLsbD_encode_enc hwf, if_neg (by omega), if_neg (by omega)]
  exact Nat.testBit_lt_two_pow (hpack.trans_le (Nat.pow_le_pow_right (by omega) (by omega)))

/-- Bit k of the operand of an encoded word. -/
theorem getLsbD_encode_operand (c : Config) (x : Int) (k : Nat) :
    (encode c (.decChunk x)).getLsbD (1 + k) = (BitVec.ofInt c.XW x).getLsbD k := by
  rw [getLsbD_encode_dec, if_neg (by omega), Nat.add_sub_cancel_left]

/-- Settles O16: the bits of the encoder's sums of shifted fields, field by field. -/
theorem encodedFieldsStandInTheirPlaces : Obligations.EncodedFieldsStandInTheirPlaces := by
  unfold Obligations.EncodedFieldsStandInTheirPlaces
  refine ⟨fun c n chs _ hwf => ⟨getLsbD_encode_enc hwf 0, fun k hk => getLsbD_encode_count hwf hk,
    fun j _ k hk => getLsbD_encode_ordinal hwf j hk, fun b hb => getLsbD_encode_above hwf hb⟩,
    fun c x _ _ => ⟨getLsbD_encode_dec c x 0, fun k _ => getLsbD_encode_operand c x k, fun b hb => ?_⟩⟩
  rw [getLsbD_encode_dec, if_neg (by omega), BitVec.getLsbD_of_ge _ _ (by omega)]

/-- A request field holds the number whose bits stand in it. -/
theorem toNat_requestField {c : Config} {w : RequestWord c} {lo len m : Nat} (hm : m < 2 ^ len)
    (h : ∀ k < len, w.getLsbD (lo + k) = m.testBit k) : (requestField c w lo len).toNat = m := by
  refine eq_of_field _ _ hm fun k hk => ?_
  rw [requestField, BitVec.getLsbD_extractLsb', decide_eq_true hk, Bool.true_and, h k hk]

/-- The decoder reads back the count of an encoded chunk. -/
theorem countField_encode {c : Config} {n : Nat} {chs : List Nat} (hwf : Instr.wf c (.encChunk n chs) = true) :
    countField c (encode c (.encChunk n chs)) = n :=
  toNat_requestField (wf_enc.mp hwf).1 fun _ hk => getLsbD_encode_count hwf hk

/-- The decoder reads back each ordinal of an encoded chunk. -/
theorem ordinalField_encode {c : Config} {n : Nat} {chs : List Nat} (hwf : Instr.wf c (.encChunk n chs) = true) (j : Nat) :
    ordinalField c (encode c (.encChunk n chs)) j = chs.getD j 0 :=
  toNat_requestField (getD_lt (Nat.two_pow_pos _) (wf_enc.mp hwf).2.2) fun _ hk => getLsbD_encode_ordinal hwf j hk

/-- The decoder reads back an operand that fits its field, sign included (R10). -/
theorem operandField_encode {c : Config} {x : Int} (hXW : 0 < c.XW) (hwf : Instr.wf c (.decChunk x) = true) :
    operandField c (encode c (.decChunk x)) = x := by
  obtain ⟨hlow, hhigh⟩ := wf_dec.mp hwf
  have hfield : requestField c (encode c (.decChunk x)) 1 c.XW = BitVec.ofInt c.XW x := by
    refine BitVec.eq_of_getLsbD_eq fun k hk => ?_
    rw [requestField, BitVec.getLsbD_extractLsb', getLsbD_encode_operand, decide_eq_true hk, Bool.true_and]
  rw [operandField, hfield]
  exact BitVec.toInt_ofInt_eq_self hXW hlow hhigh

/-- Settles O14: bit 0 selects the operation again, and every field reads back. -/
theorem decodeInvertsEncode : Obligations.DecodeInvertsEncode := by
  unfold Obligations.DecodeInvertsEncode
  rintro c ⟨-, -, -, hXW⟩ i hwf
  cases i with
  | encChunk n chs =>
    have hlen := (wf_enc.mp hwf).2.1
    have hchs : (List.range c.K).map (ordinalField c (encode c (.encChunk n chs))) = chs := by
      refine List.ext_getElem (by simp [hlen]) fun j _ hj => ?_
      simp [ordinalField_encode hwf, hj]
    rw [decode_of_bit0_clear (getLsbD_encode_enc hwf 0), countField_encode hwf, hchs]
  | decChunk x =>
    rw [decode_of_bit0_set (getLsbD_encode_dec c x 0), operandField_encode (by omega) hwf]

end Sys2Proof.Machine
end

section
/-! PROOFS. Every request word presents one operation that fits the ports, and its response depends on the fields that
operation reads alone (R60 to R62, R65, R66). -/

namespace Sys2Proof.Machine

/-- What a request word presents fits the ports: the fields have the ports' widths (R23). -/
theorem wf_decode {c : Config} (w : RequestWord c) : (decode c w).wf c = true := by
  cases h0 : w.getLsbD 0 with
  | false =>
    rw [decode_of_bit0_clear h0, wf_enc]
    refine ⟨BitVec.isLt _, by simp, fun o ho => ?_⟩
    obtain ⟨j, -, rfl⟩ := List.mem_map.mp ho
    exact BitVec.isLt _
  | true =>
    rw [decode_of_bit0_set h0, wf_dec]
    exact ⟨BitVec.le_toInt _, BitVec.toInt_lt⟩

/-- Bit 0 alone says which operation a request word decodes to (R60, R66). -/
theorem decode_kind_iff_bit0 (c : Config) (w : RequestWord c) :
    ((∃ x, decode c w = .decChunk x) ↔ w.getLsbD 0 = true) ∧
    ((∃ n chs, decode c w = .encChunk n chs) ↔ w.getLsbD 0 = false) := by
  cases h0 : w.getLsbD 0 with
  | false => simp [decode_of_bit0_clear h0]
  | true => simp [decode_of_bit0_set h0]

/-- Settles O15: bit 0 selects the format, and re-encoding presents the same operation, whose response is a function of
that operation. -/
theorem everyRequestWordIsOneOperation : Obligations.EveryRequestWordIsOneOperation := by
  unfold Obligations.EveryRequestWordIsOneOperation
  intro c w hc
  have hwf := wf_decode w
  obtain ⟨hdec, henc⟩ := decode_kind_iff_bit0 c w
  refine ⟨hwf, hdec, henc, ?_⟩
  rw [respond, respond, decodeInvertsEncode c hc _ hwf]

/-- Settles O4: the decoder gives an encoded request back, and idle or not, a step is the run of the decoded request. -/
theorem stepRunsPresentedRequest : Obligations.StepRunsPresentedRequest := by
  unfold Obligations.StepRunsPresentedRequest
  refine ⟨fun s t w rest hp hexec => step_of_exec hp rfl hexec, fun s t i rest hwf hp hexec => ?_, fun s hidle => ?_⟩
  · exact step_of_exec hp (decodeInvertsEncode _ (by decide) i hwf) hexec
  · rw [step_of_idle hidle, exec_eq]
    rfl

/-- Two field lists present the same chunk when they agree below min(n, K) (R61, R65). -/
theorem presentedChunk_congr {c : Config} {n : Nat} {chs chs' : List Nat}
    (h : ∀ j < min n c.K, chs.getD j 0 = chs'.getD j 0) : presentedChunk c n chs = presentedChunk c n chs' := by
  refine List.map_congr_left fun j hj => ?_
  have hn : j < n := List.mem_range.mp hj
  rw [presentedOrdinal, presentedOrdinal]
  split
  · exact h j (by omega)
  · rfl

/-- Ordinal field j among all the fields that the decoder lists. -/
theorem getD_map_ordinalField {c : Config} (w : RequestWord c) {j : Nat} (hj : j < c.K) :
    ((List.range c.K).map (ordinalField c w)).getD j 0 = ordinalField c w j := by
  simp [hj]

/-- Settles O17: the two words present the same request, and the response is a function of that request. -/
theorem ignoredBitsHaveNoEffect : Obligations.IgnoredBitsHaveNoEffect := by
  unfold Obligations.IgnoredBitsHaveNoEffect
  refine fun c v w => ⟨fun hv hw hcount hfields => ?_, fun hv hw hdin => ?_⟩
  · have hchunk : presentedChunk c (countField c w) ((List.range c.K).map (ordinalField c v)) =
        presentedChunk c (countField c w) ((List.range c.K).map (ordinalField c w)) := by
      refine presentedChunk_congr fun j hj => ?_
      have hK : j < c.K := by omega
      rw [getD_map_ordinalField v hK, getD_map_ordinalField w hK, hfields j hj]
    rw [respond, respond, decode_of_bit0_clear hv, decode_of_bit0_clear hw, hcount, requestOf, requestOf, hchunk]
  · rw [respond, respond, decode_of_bit0_set hv, decode_of_bit0_set hw, hdin]

/-- Settles O18: each word's fields, evaluated. -/
theorem specRequestWordsDecode : Obligations.SpecRequestWordsDecode := by
  unfold Obligations.SpecRequestWordsDecode
  decide

/-- The count field is the narrowest that holds K+1: its top bit has at most that value (R7). -/
theorem two_pow_CNTW_sub_one_le (c : Config) : 2 ^ (c.CNTW - 1) ≤ c.K + 1 := by
  rw [Config.CNTW, bitLength, if_neg (by omega), Nat.add_sub_cancel]
  exact Nat.log2_self_le (by omega)

/-- The operand field holds -1 and 2^N: N+2 bits have room for both (R7). -/
theorem operand_holds_malformed {c : Config} (hXW : c.N + 2 ≤ c.XW) :
    Instr.wf c (.decChunk (-1)) = true ∧ Instr.wf c (.decChunk (2 ^ c.N)) = true := by
  have hpos : (0 : Int) < 2 ^ c.N := by positivity
  have hroom : (2 : Int) ^ c.N < 2 ^ (c.XW - 1) := pow_lt_pow_right₀ (by norm_num) (by omega)
  rw [wf_dec, wf_dec]
  omega

/-- Settles O19: the widths of each field in turn. -/
theorem fieldsHoldEveryErrorThatCanOccur : Obligations.FieldsHoldEveryErrorThatCanOccur := by
  unfold Obligations.FieldsHoldEveryErrorThatCanOccur
  refine ⟨?_, by decide, standard_N, standard_RQW, standard_RSW⟩
  rintro c ⟨-, -, -, hXW⟩
  obtain ⟨hneg, hhigh⟩ := operand_holds_malformed hXW
  refine ⟨count_lt c, two_pow_CNTW_sub_one_le c, hneg, hhigh, fun hOW => ?_⟩
  simpa [ordinalsFit] using Nat.pow_lt_pow_right (by omega) hOW

/-- A line that fits has the encodings of its requests as words, and any other line has none (log entry 14). -/
theorem words_eq_some_iff {c : Config} {l : AsmLine} {ws : List (RequestWord c)} :
    l.words c = some ws ↔ l.fits c = true ∧ (l.instrs c).map (encode c) = ws := by
  rw [AsmLine.words]
  cases l.fits c <;> simp

/-- Settles O20: a line's words are the encodings of its requests, each of which decodes to itself. -/
theorem assembledWordsDecodeToTheLine : Obligations.AssembledWordsDecodeToTheLine := by
  unfold Obligations.AssembledWordsDecodeToTheLine
  intro c l hc
  refine ⟨?_, fun ws hws => ?_, fun str ws hl hws => ?_⟩
  · simp [words_eq_some_iff]
  · obtain ⟨hfits, rfl⟩ := words_eq_some_iff.mp hws
    rw [List.map_map, List.map_congr_left (g := id), List.map_id]
    exact fun i hi => decodeInvertsEncode c hc i (List.all_eq_true.mp hfits i hi)
  · obtain ⟨-, rfl⟩ := words_eq_some_iff.mp hws
    subst hl
    rw [List.length_map, AsmLine.instrs, encStrInstrs, List.length_map, split_length, chunkCount]

/-- The fields of `enc.chunk` hold the chunk's characters, and 0 in the positions it does not fill (R67). -/
theorem presentedChunk_of_chunk {c : Config} {cs : List Nat} (hlen : cs.length ≤ c.K) :
    presentedChunk c cs.length ((List.range c.K).map fun j => cs.getD j 0) = cs := by
  refine List.ext_getElem (presented_length ..) fun j _ hj => ?_
  have hK : j < c.K := by omega
  simp [presentedChunk, presentedOrdinal, hj, hK]

/-- Settles O21: at most K characters are presented as they stand, more of them only counted. -/
theorem chunkRequestPresentsItsChunk : Obligations.ChunkRequestPresentsItsChunk := by
  unfold Obligations.ChunkRequestPresentsItsChunk
  refine fun c cs => ⟨fun hlen => ?_, fun hlong => ?_, fun hcount hfit => ?_⟩
  · rw [chunkInstr, requestOf, presentedChunk_of_chunk hlen]
  · rw [chunkInstr, requestOf, block_enc_error_iff]
    exact encodeChunk_tooLong (by rwa [presented_length])
  · rw [chunkInstr, wf_enc]
    refine ⟨hcount, by simp, fun o ho => ?_⟩
    obtain ⟨j, -, rfl⟩ := List.mem_map.mp ho
    exact getD_lt (Nat.two_pow_pos _) hfit

end Sys2Proof.Machine
end

section
/-! PROOFS. The linear packing of lanes, and what the host reads from the response bus (R42, R63 to R65, R165). -/

namespace Sys2Proof.Machine

/-- Bit q of unpacked lane j is field bit j*W + q (R42). -/
theorem getLsbD_linearUnpack (c : Config) (v : EncodedWord c) (j : Fin c.K) {q : Nat} (hq : q < c.W) :
    (linearUnpack c v j).getLsbD q = v.getLsbD (j.val * c.W + q) := by
  rw [linearUnpack, BitVec.getLsbD_extractLsb', decide_eq_true hq, Bool.true_and]

/-- Bit j*W + q of the linear packing is bit q of lane j, for a source position j of the chunk (R42). -/
theorem getLsbD_linearPack_lane (c : Config) (P : Lanes c) (j : Fin c.K) {q : Nat} (hq : q < c.W) :
    (linearPack c P).getLsbD (j.val * c.W + q) = (P j).getLsbD q := by
  rw [getLsbD_linearPack c P hq j.isLt, laneAt_val]

/-- Unpacking undoes packing (R64). -/
theorem linearUnpack_linearPack (c : Config) (P : Lanes c) : linearUnpack c (linearPack c P) = P := by
  funext j
  refine BitVec.eq_of_getLsbD_eq fun q hq => ?_
  rw [getLsbD_linearUnpack c _ j hq, getLsbD_linearPack_lane c P j hq]

/-- Packing undoes unpacking: the positions j*W + q reach every bit (R64). -/
theorem linearPack_linearUnpack (c : Config) (v : EncodedWord c) : linearPack c (linearUnpack c v) = v := by
  refine BitVec.eq_of_getLsbD_eq fun b hb => ?_
  obtain ⟨j, hj, q, hq, rfl⟩ := exists_stride (a := c.W) (b := c.K) (by rwa [Nat.mul_comm])
  rw [getLsbD_linearPack_lane c _ ⟨j, hj⟩ hq, getLsbD_linearUnpack c v ⟨j, hj⟩ hq]

/-- Settles O23: both directions move bit q of lane j to and from position j*W + q. -/
theorem linearPackingIsExact : Obligations.LinearPackingIsExact := by
  unfold Obligations.LinearPackingIsExact
  exact fun c => ⟨fun P j q hq => getLsbD_linearPack_lane c P j hq, linearUnpack_linearPack c, linearPack_linearUnpack c⟩

/-- The err field names its error again (R165). -/
@[simp] theorem errorOfCode_code (e : ErrCode) : errorOfCode e.code = some e := by cases e <;> rfl

/-- Code 0 is success (R165). -/
@[simp] theorem errorOfCode_zero : errorOfCode 0 = none := rfl

/-- An error of ENC_CHUNK has an index that aux holds: 0 or a source position below K. -/
theorem encodeChunk_error_idx_le {c : Config} {cs : List Nat} {r : Raised} (hr : encodeChunk c cs = .error r) :
    r.idx ≤ c.K := by
  rcases encodeChunk_cases c cs with ⟨-, h⟩ | ⟨hlen, j, hj, -, -, h⟩ | ⟨-, -, h⟩
  · cases h.symm.trans hr
    exact Nat.zero_le _
  · cases h.symm.trans hr
    exact (hj.trans_le hlen).le
  · cases h.symm.trans hr

/-- The host reads ENC_CHUNK's result from the bus of its response (R186). -/
theorem readWord_block (c : Config) (cs : List Nat) : readWord c (block c (.enc cs)).bus = encodeChunk c cs := by
  rw [readWord, errOf_response, auxOf_response, dataOf_response, block, encChunk]
  cases h : encodeChunk c cs with
  | ok w => rfl
  | error r => simp [encResponse, toNat_aux (encodeChunk_error_idx_le h)]

/-- The host reads DEC_CHUNK's result from the bus of its response (R186). -/
theorem readDecoded_block {c : Config} (hK : 1 ≤ c.K) (x : Int) :
    readDecoded c (block c (.dec x)).bus = decodeChunk c x := by
  rw [readDecoded, errOf_response, auxOf_response, dataOf_response, block, decChunk]
  rcases decodeChunk_cases c x with ⟨-, h⟩ | ⟨-, -, h⟩
  · rw [h]
    rfl
  · have hcount := toNat_aux ((keptCount_spec c (deinterleave c (BitVec.ofInt c.N x))).2.1 hK)
    rw [h, decResponse, ports_chars, errorOfCode_zero, linearUnpack_linearPack, hcount]

/-- Settles O22: reading inverts the bus on each answer of the two operations. -/
theorem responseBusCarriesTheResult : Obligations.ResponseBusCarriesTheResult := by
  unfold Obligations.ResponseBusCarriesTheResult
  exact fun c hc => ⟨readWord_block c, readDecoded_block hc.1⟩

end Sys2Proof.Machine
end

section
/-! PROOFS. The range tests as the ports' high bits make them, and the two lane functions (R81, R83, R84, R121). -/

namespace Sys2Proof.Machine

/-- Some bit from position m on is set exactly when the value is 2^m or more. -/
theorem extract_high_ne_zero_iff {n m : Nat} (h : m ≤ n) (v : BitVec n) :
    (v.extractLsb' m (n - m) != 0) = true ↔ 2 ^ m ≤ v.toNat := by
  have hfits : v.toNat / 2 ^ m < 2 ^ (n - m) := by
    rw [Nat.div_lt_iff_lt_mul (Nat.two_pow_pos m), ← pow_add, Nat.sub_add_cancel h]
    exact v.isLt
  rw [bne_iff_ne, Ne, ← BitVec.toNat_inj, BitVec.extractLsb'_toNat, Nat.shiftRight_eq_div_pow, Nat.mod_eq_of_lt hfits]
  simp [Nat.div_eq_zero_iff]

/-- toLane rejects exactly the ordinals of 2^W or more (R80). -/
theorem toLane_error_iff {c : Config} {o : Nat} : toLane c o = .error .laneWidthExceeded ↔ 2 ^ c.W ≤ o := by
  refine ⟨fun h => ?_, toLane_error⟩
  by_contra hfits
  cases (toLane_ok (Nat.lt_of_not_le hfits)).symm.trans h

/-- Settles O28: the field from bit W on is the ordinal divided by 2^W, and has no bits when OW = W. -/
theorem ordinalRangeTestIsItsHighBits : Obligations.OrdinalRangeTestIsItsHighBits := by
  unfold Obligations.OrdinalRangeTestIsItsHighBits
  rintro c ch ⟨-, -, hOW, -⟩
  have htest : ordinalHighBitSet c ch = true ↔ 2 ^ c.W ≤ ch.toNat := extract_high_ne_zero_iff hOW ch
  refine ⟨htest.trans toLane_error_iff.symm, fun hequal => ?_⟩
  rw [Bool.eq_false_iff, Ne, htest, ← hequal]
  exact Nat.not_le_of_lt ch.isLt

/-- Settles O26: a lane is the binary form of its own value. -/
theorem lanesAndOrdinalsAreInverse : Obligations.LanesAndOrdinalsAreInverse := by
  unfold Obligations.LanesAndOrdinalsAreInverse
  refine fun c => ⟨fun o L => ⟨fun h => (toNat_of_toLane h).symm, ?_⟩, BitVec.isLt⟩
  rintro rfl
  rw [fromLane, toLane_ok L.isLt, BitVec.ofNat_toNat, BitVec.setWidth_eq]

end Sys2Proof.Machine
end

section
/-! PROOFS. ENC_CHUNK of a valid chunk: the lanes, the word, and which chunks share a word (R100, R102, R103, R106,
R107). -/

namespace Sys2Proof.Machine

/-- Settles O33: with one lane the stride is 1, and with one bit a lane there is one row. -/
theorem transposeOfOneLaneOrOneBit : Obligations.TransposeOfOneLaneOrOneBit := by
  unfold Obligations.TransposeOfOneLaneOrOneBit
  refine fun c P => ⟨fun hK => ?_, fun hW => ?_⟩
  · have hN : c.N = c.W := by rw [Config.N, hK, Nat.one_mul]
    refine eq_of_field _ _ (by rw [hN]; exact BitVec.isLt _) fun q hq => ?_
    rw [BitVec.testBit_toNat, ← getLsbD_interleave c P (hN ▸ hq) (by omega), hK, Nat.mul_one, Nat.add_zero]
  · refine ofBits_congr fun b hb => ?_
    have hbK : b < c.K := by rwa [Config.N, hW, Nat.mul_one] at hb
    simp only [hW, Nat.mod_eq_of_lt hbK, Nat.div_eq_of_lt hbK, Nat.div_one, Nat.mod_one]

/-- Every lane of a valid chunk has its character's value, padding that of ordinal 0 (R102, R107). -/
theorem toNat_laneAt_padLanes {c : Config} {cs : List Nat} (hfit : ∀ o ∈ cs, o < 2 ^ c.W) {j : Nat} (hj : j < c.K) :
    (laneAt (padLanes c cs) j).toNat = cs.getD j 0 := by
  rw [laneAt_padLanes hfit hj, BitVec.toNat_ofNat, Nat.mod_eq_of_lt (getD_lt (Nat.two_pow_pos _) hfit)]

/-- Two valid chunks have the same lanes exactly when they agree at every position of a chunk. -/
theorem padLanes_eq_iff {c : Config} {cs ds : List Nat} (hcs : ∀ o ∈ cs, o < 2 ^ c.W) (hds : ∀ o ∈ ds, o < 2 ^ c.W) :
    padLanes c cs = padLanes c ds ↔ ∀ j < c.K, cs.getD j 0 = ds.getD j 0 := by
  constructor
  · intro h j hj
    rw [← toNat_laneAt_padLanes hcs hj, h, toNat_laneAt_padLanes hds hj]
  · intro h
    funext j
    rw [← laneAt_val (padLanes c cs), ← laneAt_val (padLanes c ds), laneAt_padLanes hcs j.isLt, h j j.isLt,
      laneAt_padLanes hds j.isLt]

/-- Two valid chunks of at most K characters have the same word exactly when they agree at every position. -/
theorem block_enc_eq_iff {c : Config} {cs ds : List Nat} (hcl : cs.length ≤ c.K) (hdl : ds.length ≤ c.K)
    (hcs : ∀ o ∈ cs, o < 2 ^ c.W) (hds : ∀ o ∈ ds, o < 2 ^ c.W) :
    block c (.enc cs) = block c (.enc ds) ↔ ∀ j < c.K, cs.getD j 0 = ds.getD j 0 := by
  rw [block_enc_word_iff.mpr (encodeChunk_valid hcl hcs), block_enc_word_iff.mpr (encodeChunk_valid hdl hds),
    Response.word.injEq, (interleave_bijective c).injective.eq_iff, padLanes_eq_iff hcs hds]

/-- Beyond a position where both lists have ended, reading with default 0 cannot tell them apart. -/
theorem forall_getD_iff {cs ds : List Nat} {n : Nat} (hcs : cs.length ≤ n) (hds : ds.length ≤ n) :
    (∀ j < n, cs.getD j 0 = ds.getD j 0) ↔ ∀ j, cs.getD j 0 = ds.getD j 0 := by
  refine ⟨fun h j => ?_, fun h j _ => h j⟩
  rcases Nat.lt_or_ge j n with hj | hj
  · exact h j hj
  · rw [List.getD_eq_default _ _ (by omega), List.getD_eq_default _ _ (by omega)]

/-- Bit q*K + j of a valid chunk's word is bit q of its character j (R100, R103). -/
theorem getLsbD_word_of_valid {c : Config} {cs : List Nat} (hfit : ∀ o ∈ cs, o < 2 ^ c.W) {q j : Nat} (hq : q < c.W)
    (hj : j < c.K) :
    (interleave c (padLanes c cs)).getLsbD (q * c.K + j) = (decide (j < cs.length) && (cs.getD j 0).testBit q) := by
  rw [getLsbD_interleave c _ hq hj, ← BitVec.testBit_toNat, toNat_laneAt_padLanes hfit hj]
  rcases Nat.lt_or_ge j cs.length with hlt | hge
  · rw [decide_eq_true hlt, Bool.true_and]
  · rw [List.getD_eq_default _ _ hge, Nat.zero_testBit, Bool.and_false]

/-- Settles O34: the answer is the transposed word of the padded lanes. -/
theorem validChunkEncodes : Obligations.ValidChunkEncodes := by
  unfold Obligations.ValidChunkEncodes
  exact fun c cs hlen hfit => ⟨_, block_enc_word_iff.mpr (encodeChunk_valid hlen hfit),
    fun q hq j hj => getLsbD_word_of_valid hfit hq hj⟩

/-- Settles O35: the range check of ENC_CHUNK, read off its response. -/
theorem laneErrorNamesHighestPosition : Obligations.LaneErrorNamesHighestPosition := by
  unfold Obligations.LaneErrorNamesHighestPosition
  exact fun c cs j hlen => block_enc_error_iff.trans (encodeChunk_bad hlen)

/-- The empty chunk has the word 0: all its lanes are padding (R100). -/
theorem block_enc_nil (c : Config) : block c (.enc []) = .word 0 := by
  rw [block_enc_word_iff, encodeChunk_valid (Nat.zero_le _) (by simp)]
  refine congrArg _ (BitVec.eq_of_getLsbD_eq fun b hb => ?_)
  obtain ⟨q, hq, j, hj, rfl⟩ := exists_stride hb
  rw [getLsbD_word_of_valid (by simp) hq hj]
  simp

/-- An appended 0 is what the default reads there anyway. -/
theorem getD_concat_zero (cs : List Nat) (j : Nat) : (cs ++ [0]).getD j 0 = cs.getD j 0 := by
  rcases Nat.lt_or_ge j cs.length with hj | hj
  · rw [List.getD_append _ _ _ _ hj]
  · rw [List.getD_append_right _ _ _ _ hj, List.getD_eq_default _ _ hj]
    cases j - cs.length <;> rfl

/-- Settles O36: an appended 0 and the absent characters of the empty chunk read the same as padding. -/
theorem paddingLooksLikeOrdinalZero : Obligations.PaddingLooksLikeOrdinalZero := by
  unfold Obligations.PaddingLooksLikeOrdinalZero
  refine fun c cs hfit => ⟨fun hshort => ?_, fun hlen hzero => ?_⟩
  · have hfit0 : ∀ o ∈ cs ++ [0], o < 2 ^ c.W := by simpa [or_imp, forall_and] using hfit
    rw [block_enc_eq_iff hshort.le (by simpa using hshort) hfit hfit0]
    exact fun j _ => (getD_concat_zero cs j).symm
  · rw [← block_enc_nil c, block_enc_eq_iff hlen (Nat.zero_le _) hfit (by simp)]
    intro j _
    have hget : cs.getD j 0 < 1 := getD_lt Nat.one_pos fun o ho => by rw [hzero o ho]; exact Nat.one_pos
    rw [List.getD_nil]
    omega

/-- Removing trailing zeros changes no character that is read with default 0. -/
theorem getD_rdropWhile_zero (cs : List Nat) (j : Nat) : (cs.rdropWhile (fun o => o == 0)).getD j 0 = cs.getD j 0 := by
  induction cs using List.reverseRecOn with
  | nil => rfl
  | append_singleton cs o ih =>
    rw [List.rdropWhile_concat]
    split
    · have ho : o = 0 := by simpa using ‹(o == 0) = true›
      rw [ih, ho, getD_concat_zero]
    · rfl

/-- A list of at least m ordinals that has more only where it ends in a non-zero one: what is left when trailing zeros are
removed but m ordinals are kept. -/
def TrimmedTo (m : Nat) (os : List Nat) : Prop := m ≤ os.length ∧ (os.length = m ∨ os.getD (os.length - 1) 0 ≠ 0)

/-- A trimmed list is no longer than any other list of at least m ordinals that reads the same. -/
theorem TrimmedTo.length_le {m : Nat} {as bs : List Nat} (has : TrimmedTo m as) (hm : m ≤ bs.length)
    (hget : ∀ j, as.getD j 0 = bs.getD j 0) : as.length ≤ bs.length := by
  rcases has with ⟨-, hlen | hlast⟩
  · omega
  · by_contra hlonger
    exact hlast ((hget _).trans (List.getD_eq_default _ _ (by omega)))

/-- What a trimmed list reads determines it. -/
theorem TrimmedTo.ext {m : Nat} {as bs : List Nat} (has : TrimmedTo m as) (hbs : TrimmedTo m bs)
    (hget : ∀ j, as.getD j 0 = bs.getD j 0) : as = bs := by
  have hlen : as.length = bs.length :=
    le_antisymm (has.length_le hbs.1 hget) (hbs.length_le has.1 fun j => (hget j).symm)
  refine List.ext_getElem hlen fun j hj hj' => ?_
  rw [← List.getD_eq_getElem _ 0 hj, hget j, List.getD_eq_getElem _ _ hj']

/-- Without its trailing zeros a chunk is empty or ends in a non-zero ordinal. -/
theorem trimmedTo_zero_rdropWhile (cs : List Nat) : TrimmedTo 0 (cs.rdropWhile (fun o => o == 0)) := by
  refine ⟨Nat.zero_le _, or_iff_not_imp_left.mpr fun hlen => ?_⟩
  have hnil : cs.rdropWhile (fun o => o == 0) ≠ [] := fun h => hlen (by rw [h, List.length_nil])
  have hlast := List.rdropWhile_last_not (fun o => o == 0) cs hnil
  rw [List.getLast_eq_getElem] at hlast
  rw [List.getD_eq_getElem _ _ (by omega)]
  simpa using hlast

/-- Two lists read the same exactly when they are equal after their trailing zeros are removed. -/
theorem rdropWhile_zero_eq_iff {cs ds : List Nat} :
    cs.rdropWhile (fun o => o == 0) = ds.rdropWhile (fun o => o == 0) ↔ ∀ j, cs.getD j 0 = ds.getD j 0 := by
  constructor
  · intro h j
    rw [← getD_rdropWhile_zero, h, getD_rdropWhile_zero]
  · intro h
    refine (trimmedTo_zero_rdropWhile cs).ext (trimmedTo_zero_rdropWhile ds) fun j => ?_
    rw [getD_rdropWhile_zero, getD_rdropWhile_zero, h]

/-- Settles O37: the word determines the chunk as it reads, and that is the chunk up to its trailing zeros. -/
theorem encodeIsInjectiveUpToTrailingZeros : Obligations.EncodeIsInjectiveUpToTrailingZeros := by
  unfold Obligations.EncodeIsInjectiveUpToTrailingZeros
  intro c cs ds hcl hdl hcs hds
  rw [block_enc_eq_iff hcl hdl hcs hds, forall_getD_iff hcl hdl, rdropWhile_zero_eq_iff]

end Sys2Proof.Machine
end

section
/-! PROOFS. The source's bit texts: reading one back, and its lanes and columns as it writes them (R9, R102, R104). -/

namespace Sys2Proof.Machine

/-- A text starts with its most significant bit. -/
theorem textOf_succ (n v : Nat) : textOf (n + 1) v = v.testBit n :: textOf n v := by
  rw [textOf, textOf, List.range_succ_eq_map, List.map_cons, List.map_map]
  refine congrArg₂ _ rfl (List.map_congr_left fun t _ => ?_)
  rw [Function.comp_apply, show n + 1 - 1 - t.succ = n - 1 - t by omega]

/-- String position t is value bit len-1-t (R9). -/
theorem getD_textOf {len t : Nat} (v : Nat) (ht : t < len) : (textOf len v).getD t false = v.testBit (len - 1 - t) := by
  simp [textOf, ht]

/-- Reading a text after the value `acc` shifts that value past it. -/
theorem foldl_textOf (n v acc : Nat) :
    (textOf n v).foldl (fun v b => 2 * v + b.toNat) acc = acc * 2 ^ n + v % 2 ^ n := by
  induction n generalizing acc with
  | zero => simp [textOf, Nat.mod_one]
  | succ n ih =>
    rw [textOf_succ, List.foldl_cons, ih, Nat.toNat_testBit, Nat.mod_pow_succ]
    ring

/-- Parsing the text of a value gives the value back (R9, R104). -/
theorem valueOfText_textOf {n v : Nat} (hv : v < 2 ^ n) : valueOfText (textOf n v) = v := by
  rw [valueOfText, foldl_textOf, Nat.zero_mul, Nat.zero_add, Nat.mod_eq_of_lt hv]

/-- The text of 0 is all zeros. -/
theorem textOf_zero (n : Nat) : textOf n 0 = List.replicate n false := by
  simp [textOf, List.map_const']

/-- The source's lane list of the lanes `P`: the texts of P_{K-1}, ..., P_0 (R102, R122). -/
def sourceLaneList (c : Config) (P : Lanes c) : List (List Bool) :=
  (List.range c.K).map fun i => textOf c.W (laneAt P (c.K - 1 - i)).toNat

/-- Reversing a valid chunk and padding it on the left lists its padded lanes from the last to the first (R102). -/
theorem sourceLanes_eq {c : Config} {cs : List Nat} (hlen : cs.length ≤ c.K) (hfit : ∀ o ∈ cs, o < 2 ^ c.W) :
    sourceLanes c cs = sourceLaneList c (padLanes c cs) := by
  refine List.ext_getElem (by simp [sourceLanes, sourceLaneList, hlen]) fun i _ hi => ?_
  have hK : i < c.K := by simpa [sourceLaneList] using hi
  have hlane : (sourceLaneList c (padLanes c cs))[i] = textOf c.W (cs.getD (c.K - 1 - i) 0) := by
    simp only [sourceLaneList, List.getElem_map, List.getElem_range]
    rw [toNat_laneAt_padLanes hfit (by omega)]
  rw [hlane]
  simp only [sourceLanes]
  rcases Nat.lt_or_ge i (c.K - cs.length) with hpad | hchar
  · rw [List.getElem_append_left (by simpa using hpad), List.getElem_replicate,
      List.getD_eq_default _ _ (by omega), textOf_zero]
  · rw [List.getElem_append_right (by simpa using hchar), List.getElem_map, List.getElem_reverse,
      List.getD_eq_getElem _ _ (by omega)]
    congr 2
    simp only [List.length_replicate]
    omega

/-- Settles O30: padding lanes are zero, the others the lanes of their characters, in both numberings. -/
theorem paddingPutsCharactersInTheirLanes : Obligations.PaddingPutsCharactersInTheirLanes := by
  unfold Obligations.PaddingPutsCharactersInTheirLanes
  refine fun c cs hlen hfit => ⟨fun j => ⟨fun hj => ?_, padLanes_of_le⟩, sourceLanes_eq hlen hfit⟩
  have hchar := hfit _ (List.getElem_mem hj)
  rw [padLanes_of_lt hj hchar, toLane_ok hchar]

/-- Reading a table row by row is reading the positions p*b + i in turn. -/
theorem flatMap_range_stride {α : Type} (g : Nat → α) (a b : Nat) :
    ((List.range a).flatMap fun p => (List.range b).map fun i => g (p * b + i)) = (List.range (a * b)).map g := by
  induction a with
  | zero => simp
  | succ a ih => simp [List.range_succ, ih, Nat.succ_mul, List.range_add, Function.comp_def]

/-- Reading the source's lanes column by column gives the text of the transposed word (R103, R104). -/
theorem sourceColumns_eq (c : Config) (P : Lanes c) :
    sourceColumns c (sourceLaneList c P) = textOf c.N (interleave c P).toNat := by
  have hbit : ∀ p < c.W, ∀ i < c.K, (textOf c.W (laneAt P (c.K - 1 - i)).toNat).getD p false =
      (interleave c P).toNat.testBit (c.N - 1 - (p * c.K + i)) := by
    intro p hp i hi
    have hreverse : c.N - 1 - (p * c.K + i) = (c.W - 1 - p) * c.K + (c.K - 1 - i) := stride_reverse hp hi
    rw [getD_textOf _ hp, BitVec.testBit_toNat, BitVec.testBit_toNat, hreverse,
      getLsbD_interleave c P (by omega) (by omega)]
  have hN : c.N = c.W * c.K := Nat.mul_comm ..
  rw [textOf, congrArg List.range hN, ← flatMap_range_stride, sourceColumns]
  refine List.flatMap_congr fun p hp => ?_
  rw [sourceLaneList, List.map_map]
  refine List.map_congr_left fun i hi => ?_
  rw [Function.comp_apply, hbit p (List.mem_range.mp hp) i (List.mem_range.mp hi)]

/-- Settles O38: the source's text is the text of the transposed word, which parses as that word. -/
theorem sourceTextEncodeAgrees : Obligations.SourceTextEncodeAgrees := by
  unfold Obligations.SourceTextEncodeAgrees
  refine fun c cs hlen hfit => ⟨_, encodeChunk_valid hlen hfit, ?_⟩
  rw [sourceEncode, sourceLanes_eq hlen hfit, sourceColumns_eq, valueOfText_textOf (BitVec.isLt _)]

end Sys2Proof.Machine
end

section
/-! PROOFS. DEC_CHUNK: the operands it accepts, and the lanes of a word, by the formulas and by the source's texts (R121,
R122). -/

namespace Sys2Proof.Machine

/-- DEC_CHUNK answers MalformedWord exactly outside 0 <= x < 2^N (R121). -/
theorem block_dec_malformed_iff {c : Config} {x : Int} :
    block c (.dec x) = .error .malformedWord 0 ↔ ¬(0 ≤ x ∧ x < 2 ^ c.N) := by
  rw [block_dec_error_iff]
  rcases decodeChunk_cases c x with ⟨hout, h⟩ | ⟨hlow, hhigh, h⟩
  · simp [h, hout]
  · simp [h, hlow, hhigh]

/-- A two's-complement value is at least 0 and below 2^m exactly when its bits from m on, the sign among them, are 0. -/
theorem toInt_in_range_iff {n m : Nat} (h : m < n) (v : BitVec n) :
    (0 ≤ v.toInt ∧ v.toInt < 2 ^ m) ↔ v.toNat < 2 ^ m := by
  have hhalf : 2 * 2 ^ m ≤ 2 ^ n := by rw [← pow_succ']; exact Nat.pow_le_pow_right (by omega) h
  have hcast : ((2 ^ m : Nat) : Int) = 2 ^ m := by push_cast; rfl
  have hfits := v.isLt
  rw [BitVec.toInt_eq_toNat_cond, ← hcast]
  split <;> omega

/-- Settles O39: the range check as the operation makes it, and as the operand's high bits do. -/
theorem decodeAcceptsExactlyTheWords : Obligations.DecodeAcceptsExactlyTheWords := by
  unfold Obligations.DecodeAcceptsExactlyTheWords
  refine ⟨fun c x => ?_, ?_⟩
  · obtain ⟨-, -, -, haccepts, -⟩ := noOtherErrorIsRaised c
    exact ⟨haccepts x, block_dec_malformed_iff.mpr⟩
  · rintro c din ⟨-, -, -, hXW⟩
    rw [block_dec_malformed_iff, toInt_in_range_iff (by omega), Nat.not_lt]
    exact extract_high_ne_zero_iff (by omega) din

/-- The result of DEC_CHUNK on the word `w`: its de-interleaved lanes, stripped (R120). -/
def decodedOf (c : Config) (w : EncodedWord c) : Decoded c := ⟨keptCount c (deinterleave c w), deinterleave c w⟩

/-- DEC_CHUNK of an operand in range decodes the operand as a word. -/
theorem decodeChunk_in_range {c : Config} {x : Int} (hlow : 0 ≤ x) (hhigh : x < 2 ^ c.N) :
    decodeChunk c x = .ok (decodedOf c (BitVec.ofInt c.N x)) := decodeChunk_ok hlow hhigh

/-- DEC_CHUNK accepts the value of every word. -/
theorem decodeChunk_toNat {c : Config} (w : EncodedWord c) : decodeChunk c w.toNat = .ok (decodedOf c w) := by
  have hhigh : (w.toNat : Int) < 2 ^ c.N := by exact_mod_cast w.isLt
  rw [decodeChunk_in_range (Int.natCast_nonneg _) hhigh, BitVec.ofInt_natCast, BitVec.ofNat_toNat, BitVec.setWidth_eq]

/-- Selecting every K-th bit of a word's text gives the texts of its de-interleaved lanes (R122). -/
theorem sourceSplit_textOf (c : Config) (w : EncodedWord c) :
    sourceSplit c (textOf c.N w.toNat) = sourceLaneList c (deinterleave c w) := by
  refine List.map_congr_left fun i hi => List.map_congr_left fun p hp => ?_
  have hi := List.mem_range.mp hi
  have hp := List.mem_range.mp hp
  have hpos : p * c.K + i < c.N := stride_lt hp hi
  have hreverse : c.N - 1 - (p * c.K + i) = (c.W - 1 - p) * c.K + (c.K - 1 - i) := stride_reverse hp hi
  rw [getD_textOf _ hpos, BitVec.testBit_toNat, BitVec.testBit_toNat, hreverse, laneAt_of_lt _ (by omega),
    getLsbD_deinterleave c w _ (by omega)]

/-- Settles O40: the decoded lanes are the de-interleaved operand, which undoes the transpose. -/
theorem inverseTransposeReadsEachBit : Obligations.InverseTransposeReadsEachBit := by
  unfold Obligations.InverseTransposeReadsEachBit
  intro c x hlow hhigh
  have hvalue := toNat_ofInt_of_nonneg hlow hhigh
  refine ⟨_, decodeChunk_in_range hlow hhigh, fun j q hq => ?_, fun P hP => ?_, ?_⟩
  · exact (getLsbD_deinterleave c _ j hq).trans (getLsbD_ofInt_of_nonneg hlow hhigh _)
  · have hword : BitVec.ofInt c.N x = interleave c P := BitVec.eq_of_toNat_eq (hvalue.trans hP)
    rw [decodedOf, hword, deinterleave_interleave]
  · rw [← hvalue]
    exact sourceSplit_textOf c _

end Sys2Proof.Machine
end

section
/-! PROOFS. The strip of DEC_CHUNK: as a count, as the source's loop over its list, and as a priority encoder (R123 to
R125). -/

namespace Sys2Proof.Machine

/-- The strip's count is the only one that drops zero lanes alone and ends on a non-zero lane or on the first (R123). -/
theorem eq_keptCount {c : Config} {P : Lanes c} {m : Nat} (hpos : 1 ≤ m) (hzero : ∀ j, m ≤ j → laneAt P j = 0#c.W)
    (hlast : m = 1 ∨ laneAt P (m - 1) ≠ 0#c.W) : m = keptCount c P := by
  obtain ⟨hpos', -, hzero', hlast'⟩ := keptCount_spec c P
  rcases Nat.lt_trichotomy m (keptCount c P) with hlt | heq | hgt
  · rcases hlast' with hone | hne
    · omega
    · exact absurd (hzero _ (by omega)) hne
  · exact heq
  · rcases hlast with hone | hne
    · omega
    · exact absurd (hzero' _ (by omega)) hne

/-- The OR-reduction of a lane's bits tells whether it is zero. -/
theorem orReduce_lane_iff {c : Config} (L : Lane c.W) : orReduce L.getLsbD 0 c.W = true ↔ L ≠ 0#c.W := by
  rw [orReduce_iff, Ne, lane_zero_iff]
  simp

/-- The strip's count is one more than what a priority encoder over the OR-reductions of P_1 .. P_{K-1} finds (R123). -/
theorem keptCount_eq_priorityEncode {c : Config} (P : Lanes c) :
    keptCount c P = priorityEncode (fun j => decide (1 ≤ j) && orReduce (laneAt P j).getLsbD 0 c.W) c.K + 1 := by
  have hinput : ∀ j, (decide (1 ≤ j) && orReduce (laneAt P j).getLsbD 0 c.W) = true ↔
      1 ≤ j ∧ laneAt P j ≠ 0#c.W := by
    intro j
    rw [Bool.and_eq_true, decide_eq_true_iff, orReduce_lane_iff]
  obtain ⟨hhighest, hset, hnone⟩ :=
    priorityEncode_spec (fun j => decide (1 ≤ j) && orReduce (laneAt P j).getLsbD 0 c.W) c.K
  refine (eq_keptCount (Nat.le_add_left _ _) (fun j hj => ?_) ?_).symm
  · rcases Nat.lt_or_ge j c.K with hK | hK
    · by_contra hne
      have := hhighest j hK ((hinput j).mpr ⟨by omega, hne⟩)
      omega
    · exact laneAt_of_le P hK
  · by_cases hany : ∃ j < c.K, (decide (1 ≤ j) && orReduce (laneAt P j).getLsbD 0 c.W) = true
    · exact .inr ((hinput _).mp (hset hany).2).2
    · left
      rw [hnone fun j hj => Bool.eq_false_iff.mpr fun h => hany ⟨j, hj, h⟩]

/-- A zero lane at the front is removed when another one follows (R123). -/
theorem sourceStrip_cons_of_zero {lane : List Bool} {lanes : List (List Bool)} (hzero : lane.all (fun b => !b) = true)
    (hmore : lanes ≠ []) : sourceStrip (lane :: lanes) = sourceStrip lanes := by
  cases lanes with
  | nil => exact absurd rfl hmore
  | cons next rest => rw [sourceStrip, if_pos hzero]

/-- A non-zero lane at the front ends the strip (R123). -/
theorem sourceStrip_cons_of_nonzero {lane : List Bool} {lanes : List (List Bool)}
    (hne : ¬ lane.all (fun b => !b) = true) : sourceStrip (lane :: lanes) = lane :: lanes := by
  cases lanes with
  | nil => rfl
  | cons next rest => rw [sourceStrip, if_neg hne]

/-- The strip from the front of a descending list keeps its last m lanes, when those before them are zero and lane m-1 is
not or is the last one left (R123). -/
theorem sourceStrip_range_reverse (g : Nat → List Bool) {m n : Nat} (hpos : 1 ≤ m) (hmn : m ≤ n)
    (hzero : ∀ j, m ≤ j → (g j).all (fun b => !b) = true)
    (hlast : m = 1 ∨ ¬ (g (m - 1)).all (fun b => !b) = true) :
    sourceStrip ((List.range n).reverse.map g) = (List.range m).reverse.map g := by
  induction n, hmn using Nat.le_induction with
  | base =>
    obtain ⟨k, rfl⟩ := Nat.exists_eq_add_of_le' hpos
    rw [List.range_succ, List.reverse_concat, List.map_cons]
    rcases hlast with hone | hne
    · obtain rfl : k = 0 := by omega
      rfl
    · exact sourceStrip_cons_of_nonzero hne
  | succ n hmn ih =>
    have hmore : (List.range n).reverse.map g ≠ [] := by
      rw [Ne, List.map_eq_nil_iff, List.reverse_eq_nil_iff, List.range_eq_nil]
      omega
    rw [List.range_succ, List.reverse_concat, List.map_cons, sourceStrip_cons_of_zero (hzero n hmn) hmore, ih]

/-- The text of a lane is all zeros exactly when the lane is. -/
theorem textOf_lane_all_zero_iff {c : Config} (L : Lane c.W) :
    (textOf c.W L.toNat).all (fun b => !b) = true ↔ L = 0#c.W := by
  simp only [textOf, List.all_map, List.all_eq_true, List.mem_range, Function.comp_apply, Bool.not_eq_true',
    BitVec.testBit_toNat, lane_zero_iff]
  constructor
  · intro h q hq
    have := h (c.W - 1 - q) (by omega)
    rwa [show c.W - 1 - (c.W - 1 - q) = q by omega] at this
  · exact fun h t ht => h _ (by omega)

/-- The source's list runs from the last source position down to the first (R9). -/
theorem sourceLaneList_eq_reverse (c : Config) (P : Lanes c) :
    sourceLaneList c P = (List.range c.K).reverse.map fun j => textOf c.W (laneAt P j).toNat := by
  simp [sourceLaneList, List.range_eq_range', List.reverse_range', Function.comp_def]

/-- The source's strip keeps the lanes that the count keeps, last position first (R123). -/
theorem sourceStrip_sourceLaneList {c : Config} (hK : 1 ≤ c.K) (P : Lanes c) :
    sourceStrip (sourceLaneList c P) =
      (List.range (keptCount c P)).reverse.map fun j => textOf c.W (laneAt P j).toNat := by
  obtain ⟨hpos, hle, hzero, hlast⟩ := keptCount_spec c P
  rw [sourceLaneList_eq_reverse]
  refine sourceStrip_range_reverse _ hpos (hle hK) (fun j hj => ?_) ?_
  · rw [textOf_lane_all_zero_iff]
    exact hzero j hj
  · rw [textOf_lane_all_zero_iff]
    exact hlast

/-- When some lane is not zero, the last kept one is not (R123). -/
theorem laneAt_keptCount_sub_one_ne {c : Config} {P : Lanes c} (h : ∃ j : Fin c.K, P j ≠ 0) :
    laneAt P (keptCount c P - 1) ≠ 0 := by
  obtain ⟨hpos, -, hzero, hlast⟩ := keptCount_spec c P
  rcases hlast with hone | hne
  · obtain ⟨j, hj⟩ := h
    have hj0 : j.val = 0 := by
      by_contra hne
      exact hj ((laneAt_val P j).symm.trans (hzero _ (by omega)))
    rw [hone, Nat.sub_self, ← hj0, laneAt_val]
    exact hj
  · exact hne

/-- When every lane is zero, one is kept (R123). -/
theorem keptCount_of_zero {c : Config} {P : Lanes c} (h : ∀ j, P j = 0) : keptCount c P = 1 := by
  obtain ⟨-, -, -, hone | hne⟩ := keptCount_spec c P
  · exact hone
  · refine absurd ?_ hne
    rw [laneAt]
    split
    · exact h _
    · rfl

/-- Settles O41: the count of DEC_CHUNK's strip, and the same strip by the source's loop and by gates. -/
theorem stripKeepsUpToTheHighestNonzeroLane : Obligations.StripKeepsUpToTheHighestNonzeroLane := by
  unfold Obligations.StripKeepsUpToTheHighestNonzeroLane
  rintro c x ⟨hK, -⟩ hlow hhigh
  obtain ⟨hpos, hle, hzero, -⟩ := keptCount_spec c (deinterleave c (BitVec.ofInt c.N x))
  refine ⟨_, decodeChunk_in_range hlow hhigh, hpos, hle hK, fun j hj => ?_, laneAt_keptCount_sub_one_ne,
    keptCount_of_zero, sourceStrip_sourceLaneList hK _, keptCount_eq_priorityEncode _, rfl⟩
  rw [← laneAt_val (decodedOf c _).lanes j]
  exact hzero _ hj

/-- Field j of the packed lanes is lane j (R64). -/
theorem extractLsb'_linearPack {c : Config} (P : Lanes c) {j : Nat} (hj : j < c.K) :
    (linearPack c P).extractLsb' (j * c.W) c.W = laneAt P j := by
  rw [laneAt_of_lt P hj]
  exact congrFun (linearUnpack_linearPack c P) ⟨j, hj⟩

/-- Settles O42: the data field is the packed lanes, whose lanes from the count on are zero. -/
theorem dataLanesBeyondTheCountAreZero : Obligations.DataLanesBeyondTheCountAreZero := by
  unfold Obligations.DataLanesBeyondTheCountAreZero
  rintro c x ⟨hK, -⟩ hlow hhigh
  have hd := decodeChunk_in_range hlow hhigh
  obtain ⟨-, hle, hzero, -⟩ := keptCount_spec c (deinterleave c (BitVec.ofInt c.N x))
  have hcount := hle hK
  have hblock : block c (.dec x) = .chars (keptCount c (deinterleave c (BitVec.ofInt c.N x))) _ :=
    block_dec_chars_iff.mpr hd
  refine ⟨_, hd, ?_⟩
  rw [hblock, auxOf_response, dataOf_response, ports_chars]
  refine ⟨toNat_aux hcount, List.map_congr_left fun j hj => ?_, fun j hj hge => ?_⟩
  · rw [extractLsb'_linearPack _ ((List.mem_range.mp hj).trans_le hcount)]
    rfl
  · rw [extractLsb'_linearPack _ hj]
    exact hzero j hge

/-- Settles O43: the source's strided selection and strip give the kept lanes' texts, last first; reversed and parsed they
are the chunk. -/
theorem sourceTextDecodeAgrees : Obligations.SourceTextDecodeAgrees := by
  unfold Obligations.SourceTextDecodeAgrees
  rintro c x ⟨hK, -⟩ hlow hhigh
  refine ⟨_, decodeChunk_in_range hlow hhigh, ?_⟩
  rw [sourceDecode, ← toNat_ofInt_of_nonneg hlow hhigh, sourceSplit_textOf, sourceStrip_sourceLaneList hK,
    ← List.map_reverse, List.reverse_reverse, List.map_map]
  exact List.map_congr_left fun j _ => (valueOfText_textOf (BitVec.isLt _)).symm

end Sys2Proof.Machine
end

section
/-! PROOFS. Round trips of words and of chunks (R126, R127). -/

namespace Sys2Proof.Machine

/-- Character j of a decoded chunk is lane j, dropped lanes reading as the default 0. -/
theorem getD_chunk_decodedOf {c : Config} (w : EncodedWord c) (j : Nat) :
    (decodedOf c w).chunk.getD j 0 = (laneAt (deinterleave c w) j).toNat := by
  obtain ⟨-, -, hzero, -⟩ := keptCount_spec c (deinterleave c w)
  rcases Nat.lt_or_ge j (keptCount c (deinterleave c w)) with hj | hj
  · simp [Decoded.chunk, decodedOf, fromLane, hj]
  · rw [hzero j hj, List.getD_eq_default _ _ (by simpa [Decoded.chunk, decodedOf] using hj)]
    simp

/-- A decoded chunk has as many characters as the strip keeps. -/
theorem length_chunk_decodedOf {c : Config} (w : EncodedWord c) :
    (decodedOf c w).chunk.length = keptCount c (deinterleave c w) := by
  simp [Decoded.chunk, decodedOf]

/-- A decoded chunk has a character, and more than one only where it ends in a non-zero one. -/
theorem trimmedTo_one_chunk {c : Config} (w : EncodedWord c) : TrimmedTo 1 (decodedOf c w).chunk := by
  obtain ⟨hpos, -, -, hlast⟩ := keptCount_spec c (deinterleave c w)
  rw [TrimmedTo, getD_chunk_decodedOf, length_chunk_decodedOf]
  refine ⟨hpos, hlast.imp_right fun hne hvalue => hne (BitVec.eq_of_toNat_eq ?_)⟩
  rw [hvalue]
  simp

/-- Decoded characters are lane values, which fit a lane (R84). -/
theorem chunk_lt {c : Config} (d : Decoded c) : ∀ o ∈ d.chunk, o < 2 ^ c.W := by
  intro o ho
  obtain ⟨j, -, rfl⟩ := List.mem_map.mp ho
  exact BitVec.isLt _

/-- Padding a decoded chunk again gives the lanes it was decoded from. -/
theorem padLanes_chunk_decodedOf {c : Config} (w : EncodedWord c) :
    padLanes c (decodedOf c w).chunk = deinterleave c w := by
  funext j
  refine BitVec.eq_of_toNat_eq ?_
  rw [← laneAt_val (padLanes c _), toNat_laneAt_padLanes (chunk_lt _) j.isLt, getD_chunk_decodedOf, laneAt_val]

/-- ENC_CHUNK of a word's decoded chunk is that word (R126). -/
theorem encodeChunk_chunk_decodedOf {c : Config} (hK : 1 ≤ c.K) (w : EncodedWord c) :
    encodeChunk c (decodedOf c w).chunk = .ok w := by
  have hlen : (decodedOf c w).chunk.length ≤ c.K := by
    rw [length_chunk_decodedOf]
    exact (keptCount_spec c _).2.1 hK
  rw [encodeChunk_valid hlen (chunk_lt _), padLanes_chunk_decodedOf, interleave_deinterleave]

/-- Settles O44: decoding drops only lanes that padding puts back. -/
theorem wordRoundTrip : Obligations.WordRoundTrip := by
  unfold Obligations.WordRoundTrip
  exact fun c x hc hlow hhigh => ⟨_, decodeChunk_in_range hlow hhigh, encodeChunk_chunk_decodedOf hc.1 _⟩

/-- `strip` changes no character that is read with default 0. -/
theorem getD_strip (cs : List Nat) (j : Nat) : (strip cs).getD j 0 = cs.getD j 0 := by
  rw [← getD_rdropWhile_zero cs, strip]
  split
  · rename_i hnil
    rw [hnil]
    cases j <;> rfl
  · rfl

/-- `strip` leaves a character, and more than one only where the last is not zero. -/
theorem trimmedTo_one_strip (cs : List Nat) : TrimmedTo 1 (strip cs) := by
  obtain ⟨-, hlast⟩ := trimmedTo_zero_rdropWhile cs
  rw [strip]
  split
  · exact ⟨le_rfl, .inl rfl⟩
  · rename_i hne
    have hlen := mt List.eq_nil_of_length_eq_zero hne
    exact ⟨by omega, .inr (hlast.resolve_left hlen)⟩

/-- The word of a valid chunk decodes to the stripped chunk: both read as the chunk does, and both are trimmed (R126). -/
theorem chunk_decodedOf_word {c : Config} {cs : List Nat} (hlen : cs.length ≤ c.K) (hfit : ∀ o ∈ cs, o < 2 ^ c.W) :
    (decodedOf c (interleave c (padLanes c cs))).chunk = strip cs := by
  refine (trimmedTo_one_chunk _).ext (trimmedTo_one_strip cs) fun j => ?_
  rw [getD_chunk_decodedOf, deinterleave_interleave, getD_strip]
  rcases Nat.lt_or_ge j c.K with hj | hj
  · exact toNat_laneAt_padLanes hfit hj
  · rw [laneAt_of_le _ hj, List.getD_eq_default _ _ (by omega)]
    simp

/-- Settles O45: a valid chunk encodes, and its word decodes to the chunk without its trailing zeros. -/
theorem chunkRoundTripStrips : Obligations.ChunkRoundTripStrips := by
  unfold Obligations.ChunkRoundTripStrips
  exact fun c cs _ hlen hfit =>
    ⟨_, _, encodeChunk_valid hlen hfit, decodeChunk_toNat _, chunk_decodedOf_word hlen hfit⟩

/-- `strip` keeps exactly the lists that are trimmed already. -/
theorem strip_eq_self_iff_trimmed {cs : List Nat} : strip cs = cs ↔ TrimmedTo 1 cs :=
  ⟨fun h => h ▸ trimmedTo_one_strip cs, fun h => (trimmedTo_one_strip cs).ext h (getD_strip cs)⟩

/-- The last character read by position. -/
theorem getLastD_eq_getD (cs : List Nat) : cs.getLastD 0 = cs.getD (cs.length - 1) 0 := by
  rw [List.getLastD_eq_getLast?, List.getLast?_eq_getElem?, List.getD_eq_getElem?_getD]

/-- `strip` keeps exactly [0] and the chunks that end in a non-zero ordinal (R126). -/
theorem strip_eq_self_iff {cs : List Nat} : strip cs = cs ↔ cs = [0] ∨ cs.getLastD 0 ≠ 0 := by
  rw [strip_eq_self_iff_trimmed, TrimmedTo, ← getLastD_eq_getD]
  match cs with
  | [] => simp
  | [o] => simpa using em (o = 0)
  | _ :: _ :: _ => simp

/-- `strip` changes exactly the empty chunk and the chunks of two or more that end in 0 (R126). -/
theorem strip_ne_self_iff {cs : List Nat} : strip cs ≠ cs ↔ cs = [] ∨ (2 ≤ cs.length ∧ cs.getLastD 0 = 0) := by
  rw [Ne, strip_eq_self_iff]
  match cs with
  | [] => simp
  | [o] => simp
  | _ :: _ :: _ => simp

/-- Settles O46: the chunks that come back are those `strip` leaves as they are. -/
theorem chunkIsRecoveredExactlyWhen : Obligations.ChunkIsRecoveredExactlyWhen := by
  unfold Obligations.ChunkIsRecoveredExactlyWhen
  intro c cs _ hlen hfit
  refine ⟨_, _, encodeChunk_valid hlen hfit, decodeChunk_toNat _, ?_⟩
  rw [chunk_decodedOf_word hlen hfit]
  exact ⟨strip_eq_self_iff, strip_ne_self_iff⟩

/-- Settles O47: the vectors, evaluated. -/
theorem trailingNullsAreLostLeadingKept : Obligations.TrailingNullsAreLostLeadingKept := by
  unfold Obligations.TrailingNullsAreLostLeadingKept
  decide

/-- Settles O49: a word that does not fit the decoder's N2 bits is at least 2^N2, so its own width N1 is larger. -/
theorem otherConfigurationStillDecodes : Obligations.OtherConfigurationStillDecodes := by
  unfold Obligations.OtherConfigurationStillDecodes
  intro c1 c2 w
  have hmalformed : block c2 (.dec w.toNat) = .error .malformedWord 0 ↔ 2 ^ c2.N ≤ w.toNat := by
    have hcast : ((2 ^ c2.N : Nat) : Int) = 2 ^ c2.N := by push_cast; rfl
    rw [block_dec_malformed_iff, ← hcast]
    omega
  refine ⟨hmalformed, fun h => ?_⟩
  exact (Nat.pow_lt_pow_iff_right (by omega)).mp ((hmalformed.mp h).trans_lt w.isLt)

end Sys2Proof.Machine
end

section
/-! PROOFS. The two instructions of the default block, output field by output field (R100, R108, R120, R162, R163). -/

namespace Sys2Proof.Machine

/-- A chunk presented by at most K characters fits exactly when the fields it reads do (R65). -/
theorem presentedChunk_fits {c : Config} {n : Nat} {chs : List Nat} (hn : n ≤ c.K)
    (hfit : ∀ j < n, chs.getD j 0 < 2 ^ c.W) : ∀ o ∈ presentedChunk c n chs, o < 2 ^ c.W := by
  intro o ho
  obtain ⟨j, hj, rfl⟩ := List.mem_map.mp ho
  have hlt : j < n := List.mem_range.mp hj
  rw [presentedOrdinal, if_pos (hlt.trans_le hn)]
  exact hfit j hlt

/-- Settles O9: the presented chunk is valid, and its word has each bit of each present ordinal. -/
theorem encChunkCompletes : Obligations.EncChunkCompletes := by
  unfold Obligations.EncChunkCompletes
  intro s n chs _ hn hfit
  have hlen : (presentedChunk Config.standard n chs).length ≤ Config.standard.K := by rwa [presented_length]
  have hvalid : ∀ o ∈ presentedChunk Config.standard n chs, o < 2 ^ Config.standard.W :=
    presentedChunk_fits hn hfit
  have hblock : block Config.standard (requestOf Config.standard (.encChunk n chs)) = .word _ :=
    block_enc_word_iff.mpr (encodeChunk_valid hlen hvalid)
  refine ⟨_, exec_eq _ s, ?_⟩
  rw [hblock, errOf_response, auxOf_response, dataOf_response, ports_word]
  refine ⟨rfl, rfl, fun q hq j hj => (getLsbD_word_of_valid hvalid hq hj).trans ?_⟩
  rw [presented_length]
  by_cases hjn : j < n
  · rw [presented_getD hn hjn]
  · rw [decide_eq_false hjn, Bool.false_and, Bool.false_and]

/-- An error of the default block stands on the bus as its code, its index and zero data (R165, R166). -/
theorem exec_of_block_error {i : Instr} {e : ErrCode} {k : Nat} (s : State)
    (h : block Config.standard (requestOf Config.standard i) = .error e k) :
    ∃ r, exec i s = .next { s with resp := r } ∧ errOf Config.standard r = e.code ∧
      auxOf Config.standard r = BitVec.ofNat _ k ∧ dataOf Config.standard r = 0 := by
  refine ⟨_, exec_eq i s, ?_⟩
  rw [h, errOf_response, auxOf_response, dataOf_response]
  exact ⟨rfl, rfl, rfl⟩

/-- Settles O10: the presented chunk has n characters, whatever the fields hold. -/
theorem encChunkAnswersTooLong : Obligations.EncChunkAnswersTooLong := by
  unfold Obligations.EncChunkAnswersTooLong
  intro s n chs _ hn
  refine exec_of_block_error (i := .encChunk n chs) s (block_enc_error_iff.mpr (encodeChunk_tooLong ?_))
  rwa [presented_length]

/-- Settles O11: position j is the highest of the presented chunk that fails. -/
theorem encChunkAnswersLaneWidthExceeded : Obligations.EncChunkAnswersLaneWidthExceeded := by
  unfold Obligations.EncChunkAnswersLaneWidthExceeded
  intro s n j chs _ hn hj hbad hlater
  have hlen : (presentedChunk Config.standard n chs).length ≤ Config.standard.K := by rwa [presented_length]
  have hraised : encodeChunk Config.standard (presentedChunk Config.standard n chs) =
      .error ⟨.laneWidthExceeded, j⟩ := by
    rw [encodeChunk_bad hlen, presented_length, presented_getD hn hj]
    refine ⟨hj, hbad, fun k hk hjk => ?_⟩
    rw [presented_getD hn hk]
    exact hlater k hk hjk
  obtain ⟨r, hexec, herr, haux, hdata⟩ := exec_of_block_error (i := .encChunk n chs) s (block_enc_error_iff.mpr hraised)
  exact ⟨r, hexec, herr, haux ▸ toNat_aux (hj.le.trans hn), hdata⟩

/-- A kept lane beyond the first is not zero: one of the operand's bits in it is set (R123). -/
theorem exists_bit_of_lane_ne_zero {c : Config} {x : Int} (hlow : 0 ≤ x) (hhigh : x < 2 ^ c.N) {j : Nat} (hj : j < c.K)
    (hne : laneAt (deinterleave c (BitVec.ofInt c.N x)) j ≠ 0#c.W) :
    ∃ q < c.W, x.toNat.testBit (q * c.K + j) = true := by
  rw [Ne, lane_zero_iff] at hne
  push Not at hne
  obtain ⟨q, hq, hset⟩ := hne
  rw [laneAt_deint hlow hhigh hq hj, Bool.ne_false_iff] at hset
  exact ⟨q, hq, hset⟩

/-- Settles O12: the data field is the packed lanes and aux the strip's count, read bit by bit from the operand. -/
theorem decChunkCompletes : Obligations.DecChunkCompletes := by
  unfold Obligations.DecChunkCompletes
  intro s x _ hlow hhigh
  have hhigh : x < 2 ^ Config.standard.N := hhigh
  have hblock : block Config.standard (requestOf Config.standard (.decChunk x)) = .chars _ _ :=
    block_dec_chars_iff.mpr (decodeChunk_ok hlow hhigh)
  obtain ⟨hpos, hle, hzero, hlast⟩ := keptCount_spec Config.standard (deinterleave _ (BitVec.ofInt _ x))
  have hle := hle (by decide)
  refine ⟨_, exec_eq _ s, ?_⟩
  rw [hblock, errOf_response, auxOf_response, dataOf_response, ports_chars, toNat_aux hle]
  refine ⟨rfl, fun q hq j hj => ?_, hpos, hle, fun j hj hge q hq => ?_, fun hmore => ?_⟩
  · exact (getLsbD_linearPack Config.standard _ hq hj).trans (laneAt_deint hlow hhigh hq hj)
  · refine (laneAt_deint hlow hhigh hq hj).symm.trans ?_
    rw [hzero j hge, BitVec.getLsbD_zero]
  · exact exists_bit_of_lane_ne_zero hlow hhigh (by omega) (hlast.resolve_left hmore.ne')

/-- Settles O13: an operand out of range on either side. -/
theorem decChunkAnswersMalformed : Obligations.DecChunkAnswersMalformed := by
  unfold Obligations.DecChunkAnswersMalformed
  intro s x _ hout
  exact exec_of_block_error (i := .decChunk x) s (block_dec_error_iff.mpr (decodeChunk_error hout))

end Sys2Proof.Machine
end

section
/-! PROOFS. The netlist's gates compute the block's response (R81, R102, R108, R121 to R123). -/

namespace Sys2Proof.Machine

/-- An OR-reduction of the bits of a value from bit m on is set exactly when the value is 2^m or more. -/
theorem orReduce_high_iff {n m : Nat} {f : Nat → Bool} (v : BitVec n) (hf : ∀ i < n, f i = v.getLsbD i) :
    orReduce f m (n - m) = true ↔ 2 ^ m ≤ v.toNat := by
  rw [orReduce_iff]
  constructor
  · rintro ⟨i, hi, hset⟩
    rw [hf _ (by omega), ← BitVec.testBit_toNat] at hset
    exact (Nat.pow_le_pow_right (by omega) (Nat.le_add_right m i)).trans (Nat.ge_two_pow_of_testBit hset)
  · intro hge
    obtain ⟨i, hi, hset⟩ := Nat.exists_ge_and_testBit_of_ge_two_pow hge
    rw [BitVec.testBit_toNat] at hset
    have hin : i < n := BitVec.lt_of_getLsbD hset
    refine ⟨i - m, by omega, ?_⟩
    rw [Nat.add_sub_cancel' hi, hf i hin, hset]

/-- A priority encoder answers the position above which no input is set. -/
theorem priorityEncode_eq {f : Nat → Bool} {n j : Nat} (hj : j < n) (hset : f j = true)
    (hmax : ∀ k < n, j < k → f k = false) : priorityEncode f n = j := by
  obtain ⟨hhighest, hfound, -⟩ := priorityEncode_spec f n
  obtain ⟨hlt, htrue⟩ := hfound ⟨j, hj, hset⟩
  refine le_antisymm (Nat.le_of_not_lt fun hgt => ?_) (hhighest j hj hset)
  rw [hmax _ hlt hgt] at htrue
  cases htrue

/-- Priority encoders with equal inputs answer the same. -/
theorem priorityEncode_congr {f g : Nat → Bool} {n : Nat} (h : ∀ j < n, f j = g j) :
    priorityEncode f n = priorityEncode g n := by
  induction n with
  | zero => rfl
  | succ n ih => rw [priorityEncode, priorityEncode, h n (Nat.lt_succ_self n), ih fun j hj => h j (by omega)]

/-- OR-reductions of equal inputs are equal. -/
theorem orReduce_congr {f g : Nat → Bool} {lo len : Nat} (h : ∀ i < len, f (lo + i) = g (lo + i)) :
    orReduce f lo len = orReduce g lo len := by
  rw [Bool.eq_iff_iff, orReduce_iff, orReduce_iff]
  exact exists_congr fun i => and_congr_right fun hi => by rw [h i hi]

/-- The netlist's output bus is the bus of the three output fields that have the same values and bits (R63). -/
theorem netBus_eq_bus {c : Config} {p : PortOutputs c} {err aux : Nat} {data : Nat → Bool} (herr : p.err.toNat = err)
    (haux : p.aux.toNat = aux) (hdata : ∀ b < c.N, data b = p.data.getLsbD b) : netBus c (err, aux, data) = p.bus := by
  subst herr haux
  refine BitVec.eq_of_getLsbD_eq fun b hb => ?_
  rw [netBus, getLsbD_ofBits, decide_eq_true hb, Bool.true_and, PortOutputs.bus, BitVec.getLsbD_cast,
    BitVec.getLsbD_append, BitVec.getLsbD_append]
  rw [Config.RSW] at hb
  by_cases herr : b < 2
  · simp only [herr, if_true, BitVec.testBit_toNat]
  · by_cases haux : b - 2 < c.CNTW
    · have : b < c.CNTW + 2 := by omega
      simp only [herr, haux, this, if_true, if_false, BitVec.testBit_toNat]
    · have hlow : ¬ b < c.CNTW + 2 := by omega
      have hpos : b - 2 - c.CNTW = b - (c.CNTW + 2) := by omega
      simp only [herr, haux, hlow, if_false, hpos]
      exact hdata _ (by omega)

section Encode
variable {c : Config} {w : RequestWord c}

/-- The wires of ordinal input j carry the bits of the ordinal field (R61). -/
theorem netOrdinalBit_eq (j : Nat) {q : Nat} (hq : q < c.OW) :
    netOrdinalBit c w j q = (requestField c w (c.CNTW + j * c.OW + 1) c.OW).getLsbD q := by
  rw [netOrdinalBit, requestField, BitVec.getLsbD_extractLsb', decide_eq_true hq, Bool.true_and]

/-- The comparison is the count check (R101, R108). -/
theorem netTooLong_iff : netTooLong c w = true ↔ c.K < countField c w := decide_eq_true_iff

/-- The thermometer decode of the count field passes the lanes below it (R102). -/
theorem netPresent_eq (j : Nat) : netPresent c w j = decide (j < countField c w) := rfl

/-- Lane j's over-range gate is set exactly when the lane is present and its ordinal is 2^W or more (R81, R108). -/
theorem netOver_iff {j : Nat} : netOver c w j = true ↔ j < countField c w ∧ 2 ^ c.W ≤ ordinalField c w j := by
  rw [netOver, Bool.and_eq_true, netPresent_eq, decide_eq_true_iff,
    orReduce_high_iff (requestField c w (c.CNTW + j * c.OW + 1) c.OW) fun q hq => netOrdinalBit_eq j hq]
  rfl

/-- The chunk that an encode request word presents (R65). -/
def chunkOfWord (c : Config) (w : RequestWord c) : List Nat :=
  presentedChunk c (countField c w) ((List.range c.K).map (ordinalField c w))

/-- Its length is the count field. -/
theorem length_chunkOfWord : (chunkOfWord c w).length = countField c w := presented_length ..

/-- Its characters are the ordinal fields. -/
theorem getD_chunkOfWord (hn : countField c w ≤ c.K) {j : Nat} (hj : j < countField c w) :
    (chunkOfWord c w).getD j 0 = ordinalField c w j := by
  rw [chunkOfWord, presented_getD hn hj, getD_map_ordinalField w (hj.trans_le hn)]

/-- The bit of the encoded word behind the gates of lane j (R108). -/
theorem netEncodeBit_eq (hOW : c.W ≤ c.OW) (hn : countField c w ≤ c.K) (hfit : ∀ o ∈ chunkOfWord c w, o < 2 ^ c.W)
    {b : Nat} (hb : b < c.N) : netEncodeBit c w b = (interleave c (padLanes c (chunkOfWord c w))).getLsbD b := by
  obtain ⟨q, hq, j, hj, rfl⟩ := exists_stride hb
  obtain ⟨hmod, hdiv⟩ := stride_split (q := q) hj
  rw [netEncodeBit, hmod, hdiv, getLsbD_word_of_valid hfit hq hj, length_chunkOfWord,
    netOrdinalBit_eq j (hq.trans_le hOW), ← BitVec.testBit_toNat, Bool.and_comm, netPresent_eq]
  by_cases hjn : j < countField c w
  · rw [getD_chunkOfWord hn hjn]
    rfl
  · rw [decide_eq_false hjn, Bool.false_and, Bool.false_and]

/-- The encode unit of the netlist drives the response of ENC_CHUNK (R108). -/
theorem netBus_netEncode (hOW : c.W ≤ c.OW) :
    netBus c (netEncode c w) = (block c (.enc (chunkOfWord c w))).bus := by
  rw [netEncode]
  rcases encodeChunk_cases c (chunkOfWord c w) with ⟨hlong, h⟩ | ⟨hlen, j, hj, hbad, hlater, h⟩ | ⟨hlen, hfit, h⟩
  · rw [length_chunkOfWord] at hlong
    rw [if_pos (netTooLong_iff.mpr hlong), block_enc_error_iff.mpr h]
    exact netBus_eq_bus rfl (by simp) (by simp)
  · rw [length_chunkOfWord] at hlen hj hlater
    rw [getD_chunkOfWord hlen hj] at hbad
    have hover : netOver c w j = true := netOver_iff.mpr ⟨hj, hbad⟩
    have hany : netAnyOver c w = true := (orReduce_iff ..).mpr ⟨j, hj.trans_le hlen, by rwa [Nat.zero_add]⟩
    have hhighest : priorityEncode (netOver c w) c.K = j := by
      refine priorityEncode_eq (hj.trans_le hlen) hover fun k _ hjk => ?_
      rw [Bool.eq_false_iff, Ne, netOver_iff]
      rintro ⟨hk, hkbad⟩
      have := hlater k hk hjk
      rw [getD_chunkOfWord hlen hk] at this
      omega
    rw [if_neg (netTooLong_iff.not.mpr (Nat.not_lt.mpr hlen)), if_pos hany, hhighest, block_enc_error_iff.mpr h]
    exact netBus_eq_bus rfl (toNat_aux (hj.le.trans hlen)) (by simp)
  · rw [length_chunkOfWord] at hlen
    have hnone : ¬ netAnyOver c w = true := by
      rw [netAnyOver, orReduce_iff]
      rintro ⟨j, -, hover⟩
      rw [Nat.zero_add, netOver_iff] at hover
      obtain ⟨hj, hbad⟩ := hover
      have := getD_lt (j := j) (Nat.two_pow_pos _) hfit
      rw [getD_chunkOfWord hlen hj] at this
      omega
    rw [if_neg (netTooLong_iff.not.mpr (Nat.not_lt.mpr hlen)), if_neg hnone, block_enc_word_iff.mpr h]
    exact netBus_eq_bus rfl rfl fun b hb => netEncodeBit_eq hOW hlen hfit hb

end Encode

section Decode
variable {c : Config} {w : RequestWord c}

/-- The wires of the operand input carry the bits of the operand field (R62). -/
theorem netOperandBit_eq {b : Nat} (hb : b < c.XW) : netOperandBit c w b = (requestField c w 1 c.XW).getLsbD b := by
  rw [netOperandBit, requestField, BitVec.getLsbD_extractLsb', decide_eq_true hb, Bool.true_and]

/-- The operand's OR-reduction is set exactly when the operand is out of range (R121). -/
theorem netMalformed_iff (hXW : c.N < c.XW) :
    netMalformed c w = true ↔ ¬(0 ≤ operandField c w ∧ operandField c w < 2 ^ c.N) := by
  rw [netMalformed, orReduce_high_iff (requestField c w 1 c.XW) fun b hb => netOperandBit_eq hb, operandField,
    toInt_in_range_iff hXW, Nat.not_lt]

/-- The wiring of decoded lane j (R122). -/
theorem netLaneBit_eq (hXW : c.N < c.XW) {j q : Nat} (hj : j < c.K) (hq : q < c.W) :
    netLaneBit c w j q = (laneAt (deinterleave c (BitVec.ofInt c.N (operandField c w))) j).getLsbD q := by
  have hpos : q * c.K + j < c.N := stride_lt hq hj
  have hpos' := hpos.trans hXW
  rw [laneAt_of_lt _ hj, getLsbD_deinterleave c _ ⟨j, hj⟩ hq, netLaneBit, netOperandBit_eq hpos', operandField,
    ← BitVec.signExtend, BitVec.getLsbD_signExtend, decide_eq_true hpos, if_pos hpos', Bool.true_and]

/-- The netlist's strip counts what the strip keeps (R123). -/
theorem netKept_eq (hXW : c.N < c.XW) :
    netKept c w = keptCount c (deinterleave c (BitVec.ofInt c.N (operandField c w))) := by
  rw [keptCount_eq_priorityEncode, netKept]
  refine congrArg (· + 1) (priorityEncode_congr fun j hj => congrArg _ (orReduce_congr fun q hq => ?_))
  exact netLaneBit_eq hXW hj (by omega)

/-- The decode unit of the netlist drives the response of DEC_CHUNK (R121, R125). -/
theorem netBus_netDecode (hK : 1 ≤ c.K) (hXW : c.N < c.XW) :
    netBus c (netDecode c w) = (block c (.dec (operandField c w))).bus := by
  rw [netDecode]
  rcases decodeChunk_cases c (operandField c w) with ⟨hout, h⟩ | ⟨hlow, hhigh, h⟩
  · rw [if_pos ((netMalformed_iff hXW).mpr hout), block_dec_error_iff.mpr h]
    exact netBus_eq_bus rfl (by simp) (by simp)
  · have hwell : ¬ netMalformed c w = true := by
      rw [netMalformed_iff hXW]
      exact not_not.mpr ⟨hlow, hhigh⟩
    rw [if_neg hwell, block_dec_chars_iff.mpr h, netKept_eq hXW]
    refine netBus_eq_bus rfl (toNat_aux ((keptCount_spec c _).2.1 hK)) fun b hb => ?_
    obtain ⟨j, hj, q, hq, rfl⟩ := exists_stride (a := c.W) (b := c.K) (by rwa [Nat.mul_comm])
    obtain ⟨hmod, hdiv⟩ := stride_split (q := j) hq
    rw [hmod, hdiv, netLaneBit_eq hXW hj hq]
    exact (getLsbD_linearPack c _ hq hj).symm

end Decode

/-- Settles O24: bit 0 selects the unit, and each unit drives the response of its operation. -/
theorem netlistComputesTheBlock : Obligations.NetlistComputesTheBlock := by
  unfold Obligations.NetlistComputesTheBlock
  rintro c w ⟨hK, -, hOW, hXW⟩
  rw [netlist, respond]
  cases h0 : w.getLsbD 0 with
  | false =>
    rw [decode_of_bit0_clear h0]
    exact netBus_netEncode hOW
  | true =>
    rw [decode_of_bit0_set h0]
    exact netBus_netDecode hK (by omega)

end Sys2Proof.Machine
end

section
/-! PROOFS. ENCSTR: the words of a string whose ordinals fit, and the first failing chunk of any other (R140, R142, R147). -/

namespace Sys2Proof.Machine

/-- The word of a valid chunk. -/
def wordOf (c : Config) (cs : List Nat) : EncodedWord c := interleave c (padLanes c cs)

/-- The characters of a string's chunks are characters of the string, so they fit when those do. -/
theorem splitChunks_valid {c : Config} {s cs : List Nat} {b : Nat} (hfit : ∀ o ∈ s, o < b)
    (hcs : cs ∈ splitChunks c s) :
    cs.length ≤ c.K ∧ ∀ o ∈ cs, o < b := by
  obtain ⟨m, -, rfl⟩ := List.mem_map.mp hcs
  exact ⟨chunkAt_length c s m, fun o ho => hfit o (mem_chunkAt ho)⟩

/-- ENCSTR of ordinals that fit gives the word of each chunk (R140). -/
theorem encStr_of_fits {c : Config} {s : List Nat} (hfit : ∀ o ∈ s, o < 2 ^ c.W) :
    encStr c s = .ok ((splitChunks c s).map (wordOf c)) := by
  rw [encStr, collect_ok, List.map_map]
  refine List.map_congr_left fun cs hcs => ?_
  obtain ⟨hlen, hvalid⟩ := splitChunks_valid hfit hcs
  exact encodeChunk_valid hlen hvalid

/-- Settles O51: one word per chunk, and the chunks are the string's slices. -/
theorem encStrGivesOneWordPerChunk : Obligations.EncStrGivesOneWordPerChunk := by
  unfold Obligations.EncStrGivesOneWordPerChunk
  rintro c s ⟨hK, -⟩ hfit
  refine ⟨_, encStr_of_fits hfit, by rw [List.length_map, split_length, chunkCount], ?_, fun m hm => ?_⟩
  · rintro rfl
    simp [splitChunks, chunkCount, Nat.div_eq_of_lt (Nat.sub_lt hK Nat.one_pos)]
  · rw [List.getElem_map, split_get]
    exact encodeChunk_valid (chunkAt_length c s m) fun o ho => hfit o (mem_chunkAt ho)

/-- A chunk that encodes has only characters that fit. -/
theorem chunkAt_fits_of_ok {c : Config} {s : List Nat} {m : Nat} {w : EncodedWord c}
    (h : encodeChunk c (chunkAt c s m) = .ok w) : ∀ o ∈ chunkAt c s m, o < 2 ^ c.W :=
  (exists_encodeChunk_ok_iff.mp ⟨w, h⟩).2

/-- When ENCSTR delivers words, every ordinal of the string fits: its chunks all encode, and together they are the
string. -/
theorem fits_of_encStr_ok {c : Config} (hK : 1 ≤ c.K) {s : List Nat} {ws : List (EncodedWord c)}
    (h : encStr c s = .ok ws) : ∀ o ∈ s, o < 2 ^ c.W := by
  intro o ho
  rw [encStr, collect_ok] at h
  rw [← flatten_splitChunks hK s] at ho
  obtain ⟨cs, hcs, hocs⟩ := List.mem_flatten.mp ho
  have hencoded : encodeChunk c cs ∈ ws.map Except.ok := h ▸ List.mem_map_of_mem hcs
  obtain ⟨w, -, hw⟩ := List.mem_map.mp hencoded
  exact (exists_encodeChunk_ok_iff.mp ⟨w, hw.symm⟩).2 o hocs

/-- ENCSTR fails exactly when some ordinal does not fit (R142). -/
theorem exists_encStr_error_iff {c : Config} (hK : 1 ≤ c.K) {s : List Nat} :
    (∃ e, encStr c s = .error e) ↔ ∃ o ∈ s, 2 ^ c.W ≤ o := by
  constructor
  · rintro ⟨e, he⟩
    by_contra hall
    push Not at hall
    cases (encStr_of_fits hall).symm.trans he
  · rintro ⟨o, ho, hbad⟩
    cases h : encStr c s with
    | error e => exact ⟨e, rfl⟩
    | ok ws => exact absurd (fits_of_encStr_ok hK h o ho) (Nat.not_lt.mpr hbad)

/-- An error of ENCSTR is that of its first failing chunk: LaneWidthExceeded at the chunk's highest failing position, with
every chunk before it in range (R142; D8, D19). -/
theorem encStr_error_spec {c : Config} {s : List Nat} {e : StringError} (he : encStr c s = .error e) :
    e.code = .laneWidthExceeded ∧ e.idx < (chunkAt c s e.chunk).length ∧
      2 ^ c.W ≤ (chunkAt c s e.chunk).getD e.idx 0 ∧
      (∀ k < (chunkAt c s e.chunk).length, e.idx < k → (chunkAt c s e.chunk).getD k 0 < 2 ^ c.W) ∧
      ∀ m < e.chunk, ∀ o ∈ chunkAt c s m, o < 2 ^ c.W := by
  obtain ⟨m, hm, hraised, hchunk, hearlier⟩ := (collect_error _ _ _).mp he
  rw [Nat.zero_add] at hchunk
  subst hchunk
  rw [List.getElem_map, split_get] at hraised
  have hcode := (encodeChunk_error_code hraised).resolve_left
    (encodeChunk_code_ne_chunkTooLong (chunkAt_length c s _) hraised)
  dsimp only at hcode
  rw [hcode, encodeChunk_bad (chunkAt_length c s _)] at hraised
  obtain ⟨hidx, hbad, hlater⟩ := hraised
  refine ⟨hcode, hidx, hbad, hlater, fun m' hm' => ?_⟩
  obtain ⟨w, hw⟩ := hearlier m' hm'
  rw [List.getElem_map, split_get] at hw
  exact chunkAt_fits_of_ok hw

/-- Settles O52: positions of the string are positions m*K + k of its chunks. -/
theorem encStrFailsAtTheFirstBadChunk : Obligations.EncStrFailsAtTheFirstBadChunk := by
  unfold Obligations.EncStrFailsAtTheFirstBadChunk
  rintro c s ⟨hK, -⟩
  refine ⟨exists_encStr_error_iff hK, fun e he => ?_⟩
  obtain ⟨hcode, hidx, hbad, hlater, hearlier⟩ := encStr_error_spec he
  have hidxK : e.idx < c.K := hidx.trans_le (chunkAt_length c s _)
  rw [chunkAt_getD c s _ _ hidxK] at hbad
  rw [chunkAt_len] at hidx hlater
  refine ⟨hcode, hidxK, by rw [StringError.position]; omega, hbad, fun p hp => ?_, fun p hp hafter hbefore => ?_⟩
  · have hin : p / c.K < e.chunk := Nat.div_lt_of_lt_mul (by rwa [Nat.mul_comm])
    have hget := getD_lt (j := p % c.K) (Nat.two_pow_pos _) (hearlier _ hin)
    rwa [chunkAt_getD c s _ _ (Nat.mod_lt _ hK), Nat.div_add_mod'] at hget
  · rw [StringError.position] at hafter
    rw [Nat.succ_mul] at hbefore
    obtain ⟨k, rfl⟩ := Nat.exists_eq_add_of_le (show e.chunk * c.K ≤ p by omega)
    rw [← chunkAt_getD c s _ _ (by omega)]
    exact hlater k (by omega) (by omega)

end Sys2Proof.Machine
end

section
/-! PROOFS. DECSEQ: the chunks of a sequence joined, or its first malformed element (R143). -/

namespace Sys2Proof.Machine

/-- DECSEQ delivers the joined chunks exactly when every element decodes. -/
theorem decSeq_ok_iff {c : Config} {xs : List Int} {out : List Nat} :
    decSeq c xs = .ok out ↔
      ∃ ds : List (Decoded c), xs.map (decodeChunk c) = ds.map .ok ∧ out = (ds.map Decoded.chunk).flatten := by
  simp only [← collect_ok _ 0]
  rw [decSeq, joinChunks]
  cases collectFrom 0 (xs.map (decodeChunk c)) <;> simp [Except.map, eq_comm]

/-- DECSEQ fails with the error its sequence of decodes reports. -/
theorem decSeq_error_iff {c : Config} {xs : List Int} {e : StringError} :
    decSeq c xs = .error e ↔ collectFrom 0 (xs.map (decodeChunk c)) = .error e := by
  rw [decSeq, joinChunks]
  cases collectFrom 0 (xs.map (decodeChunk c)) <;> simp [Except.map]

/-- All of a list's results are values exactly when each is one. -/
theorem exists_map_ok_iff {α β ε : Type} {f : α → Except ε β} {xs : List α} :
    (∃ bs : List β, xs.map f = bs.map .ok) ↔ ∀ x ∈ xs, ∃ b, f x = .ok b := by
  induction xs with
  | nil => exact ⟨fun _ _ hx => absurd hx List.not_mem_nil, fun _ => ⟨[], rfl⟩⟩
  | cons x xs ih =>
    rw [List.forall_mem_cons, ← ih]
    constructor
    · rintro ⟨_ | ⟨b, bs⟩, h⟩
      · cases h
      · rw [List.map_cons, List.map_cons, List.cons.injEq] at h
        exact ⟨⟨b, h.1⟩, bs, h.2⟩
    · rintro ⟨⟨b, hb⟩, bs, hbs⟩
      exact ⟨b :: bs, by rw [List.map_cons, List.map_cons, hb, hbs]⟩

/-- DECSEQ succeeds exactly when every element is a word (R143). -/
theorem exists_decSeq_ok_iff {c : Config} {xs : List Int} :
    (∃ out, decSeq c xs = .ok out) ↔ ∀ x ∈ xs, 0 ≤ x ∧ x < 2 ^ c.N := by
  simp only [← exists_decodeChunk_ok_iff, ← exists_map_ok_iff, decSeq_ok_iff]
  exact ⟨fun ⟨_, ds, hds, _⟩ => ⟨ds, hds⟩, fun ⟨ds, hds⟩ => ⟨_, ds, hds, rfl⟩⟩

/-- A decoded chunk has 1 to K characters. -/
theorem length_chunk_of_ok {c : Config} (hK : 1 ≤ c.K) {x : Int} {d : Decoded c} (h : decodeChunk c x = .ok d) :
    1 ≤ d.chunk.length ∧ d.chunk.length ≤ c.K := by
  obtain ⟨hlow, hhigh⟩ := exists_decodeChunk_ok_iff.mp ⟨d, h⟩
  cases (decodeChunk_in_range hlow hhigh).symm.trans h
  obtain ⟨hpos, hle, -, -⟩ := keptCount_spec c (deinterleave c (BitVec.ofInt c.N x))
  rw [length_chunk_decodedOf]
  exact ⟨hpos, hle hK⟩

/-- The joined chunks have at least one and at most K characters for each element. -/
theorem length_joined {c : Config} (hK : 1 ≤ c.K) {xs : List Int} {ds : List (Decoded c)}
    (h : xs.map (decodeChunk c) = ds.map .ok) :
    xs.length ≤ (ds.map Decoded.chunk).flatten.length ∧ (ds.map Decoded.chunk).flatten.length ≤ c.K * xs.length := by
  induction xs generalizing ds with
  | nil =>
    obtain rfl : ds = [] := by simpa using h.symm
    simp
  | cons x xs ih =>
    cases ds with
    | nil => cases h
    | cons d ds =>
      rw [List.map_cons, List.map_cons, List.cons.injEq] at h
      obtain ⟨hd, hds⟩ := h
      obtain ⟨hpos, hle⟩ := length_chunk_of_ok hK hd
      obtain ⟨hmin, hmax⟩ := ih hds
      rw [List.map_cons, List.flatten_cons, List.length_append, List.length_cons, Nat.mul_succ]
      omega

/-- An error of DECSEQ is MalformedWord at the first element out of range (R143, D19). -/
theorem decSeq_error_spec {c : Config} {xs : List Int} {e : StringError} (he : decSeq c xs = .error e) :
    e.code = .malformedWord ∧ e.idx = 0 ∧
      (∃ h : e.chunk < xs.length, ¬(0 ≤ xs[e.chunk] ∧ xs[e.chunk] < 2 ^ c.N)) ∧
      ∀ (m : Nat) (h : m < xs.length), m < e.chunk → 0 ≤ xs[m] ∧ xs[m] < 2 ^ c.N := by
  obtain ⟨m, hm, hraised, hchunk, hearlier⟩ := (collect_error _ _ _).mp (decSeq_error_iff.mp he)
  rw [Nat.zero_add] at hchunk
  subst hchunk
  rw [List.length_map] at hm
  rw [List.getElem_map] at hraised
  rcases decodeChunk_cases c xs[e.chunk] with ⟨hout, h⟩ | ⟨-, -, h⟩
  · rw [h] at hraised
    simp only [Except.error.injEq, Raised.mk.injEq] at hraised
    obtain ⟨hcode, hidx⟩ := hraised
    refine ⟨hcode.symm, hidx.symm, ⟨hm, hout⟩, fun m' _ hlt => ?_⟩
    rw [← exists_decodeChunk_ok_iff]
    simpa using hearlier m' hlt
  · cases h.symm.trans hraised

/-- Settles O53: the outcome of each element's decode, in order. -/
theorem decSeqJoinsOrFailsAtTheFirst : Obligations.DecSeqJoinsOrFailsAtTheFirst := by
  unfold Obligations.DecSeqJoinsOrFailsAtTheFirst
  rintro c xs ⟨hK, -⟩
  refine ⟨fun out hout => ?_, fun x d hd => ?_, fun out ys out' hout hout' => ?_, exists_decSeq_ok_iff,
    fun e he => decSeq_error_spec he⟩
  · obtain ⟨ds, hds, rfl⟩ := decSeq_ok_iff.mp hout
    obtain ⟨hmin, hmax⟩ := length_joined hK hds
    exact ⟨hmin, hmax, ds, hds, rfl⟩
  · exact decSeq_ok_iff.mpr ⟨[d], by simp [hd], by simp⟩
  · obtain ⟨ds, hds, rfl⟩ := decSeq_ok_iff.mp hout
    obtain ⟨ds', hds', rfl⟩ := decSeq_ok_iff.mp hout'
    exact decSeq_ok_iff.mpr ⟨ds ++ ds', by rw [List.map_append, List.map_append, hds, hds'], by simp⟩

end Sys2Proof.Machine
end

section
/-! PROOFS. The string round trip (R144). -/

namespace Sys2Proof.Machine

/-- DECSEQ of words joins their decoded chunks: every word is in range. -/
theorem decSeq_words {c : Config} (ws : List (EncodedWord c)) :
    decSeq c (ws.map fun w => (w.toNat : Int)) = .ok (ws.map fun w => (decodedOf c w).chunk).flatten := by
  refine decSeq_ok_iff.mpr ⟨ws.map (decodedOf c), ?_, by rw [List.map_map]; rfl⟩
  rw [List.map_map, List.map_map]
  exact List.map_congr_left fun w _ => decodeChunk_toNat w

/-- The words of a string decode to its stripped chunks (R144). -/
theorem decSeq_wordOf_chunks {c : Config} {s : List Nat} (hfit : ∀ o ∈ s, o < 2 ^ c.W) :
    decSeq c (((splitChunks c s).map (wordOf c)).map fun w => (w.toNat : Int)) =
      .ok ((splitChunks c s).map strip).flatten := by
  rw [decSeq_words, List.map_map]
  refine congrArg (fun l => Except.ok (List.flatten l)) (List.map_congr_left fun cs hcs => ?_)
  obtain ⟨hlen, hvalid⟩ := splitChunks_valid hfit hcs
  exact chunk_decodedOf_word hlen hvalid

/-- Settles O54: each chunk's round trip strips it. -/
theorem stringRoundTripStripsEachChunk : Obligations.StringRoundTripStripsEachChunk := by
  unfold Obligations.StringRoundTripStripsEachChunk
  exact fun c s _ hfit => ⟨_, encStr_of_fits hfit, decSeq_wordOf_chunks hfit⟩

/-- When no part grows, the parts' concatenation does not. -/
theorem length_flatten_map_le {α : Type} {f : List α → List α} {L : List (List α)}
    (hle : ∀ l ∈ L, (f l).length ≤ l.length) : (L.map f).flatten.length ≤ L.flatten.length := by
  rw [List.length_flatten, List.length_flatten, List.map_map]
  exact List.sum_le_sum hle

/-- When no part grows, the parts' concatenation is unchanged exactly when every part is. -/
theorem flatten_map_eq_flatten_iff {α : Type} {f : List α → List α} {L : List (List α)}
    (hle : ∀ l ∈ L, (f l).length ≤ l.length) : (L.map f).flatten = L.flatten ↔ ∀ l ∈ L, f l = l := by
  refine ⟨fun h => ?_, fun h => by rw [List.map_congr_left h, List.map_id']⟩
  induction L with
  | nil => simp
  | cons l L ih =>
    rw [List.forall_mem_cons] at hle ⊢
    obtain ⟨hl, hL⟩ := hle
    rw [List.map_cons, List.flatten_cons, List.flatten_cons] at h
    have htotal := congrArg List.length h
    have hrest := length_flatten_map_le hL
    rw [List.length_append, List.length_append] at htotal
    obtain ⟨hhead, htail⟩ := List.append_inj h (by omega)
    exact ⟨hhead, ih hL htail⟩

/-- `strip` makes no chunk of a string longer: none of them is empty. -/
theorem length_strip_le {c : Config} (hK : 1 ≤ c.K) {s cs : List Nat} (hcs : cs ∈ splitChunks c s) :
    (strip cs).length ≤ cs.length := by
  obtain ⟨m, hm, rfl⟩ := List.mem_map.mp hcs
  exact (trimmedTo_one_strip _).length_le (chunkAt_length_pos hK (List.mem_range.mp hm)) (getD_strip _)

/-- Settles O55: the string is the concatenation of its chunks, none of which `strip` makes longer. -/
theorem stringIsRecoveredExactlyWhen : Obligations.StringIsRecoveredExactlyWhen := by
  unfold Obligations.StringIsRecoveredExactlyWhen
  rintro c s ⟨hK, -⟩ hfit
  refine ⟨_, encStr_of_fits hfit, ?_⟩
  have hparts := flatten_map_eq_flatten_iff (f := strip) (L := splitChunks c s) fun cs hcs => length_strip_le hK hcs
  rw [flatten_splitChunks hK] at hparts
  rw [decSeq_wordOf_chunks hfit, Except.ok.injEq, hparts]
  simp only [strip_eq_self_iff]

end Sys2Proof.Machine
end

section
/-! PROOFS. The machine carries out the expanded string operations (R68, R140, R143). -/

namespace Sys2Proof.Machine

/-- The ports give the encoding of a request that fits them the block's response to it. -/
theorem respond_encode {c : Config} (hc : c.WF) {i : Instr} (hwf : i.wf c = true) :
    respond c (encode c i) = (block c (requestOf c i)).bus := by
  rw [respond, decodeInvertsEncode c hc i hwf]

/-- What the host reads after presenting a chunk of at most K characters that fit the ports is ENC_CHUNK's result. -/
theorem readWord_respond_chunk {c : Config} (hc : c.WF) {cs : List Nat} (hlen : cs.length ≤ c.K)
    (hfit : ∀ o ∈ cs, o < 2 ^ c.OW) : readWord c (respond c (encode c (chunkInstr c cs))) = encodeChunk c cs := by
  obtain ⟨hpresents, -, hwf⟩ := chunkRequestPresentsItsChunk c cs
  have hcount := count_lt c
  rw [respond_encode hc (hwf (by omega) hfit), hpresents hlen, readWord_block]

/-- What the host reads after presenting an operand that fits the port is DEC_CHUNK's result. -/
theorem readDecoded_respond_operand {c : Config} (hc : c.WF) {x : Int} (hfit : operandFits c x = true) :
    readDecoded c (respond c (encode c (.decChunk x))) = decodeChunk c x := by
  have hwf : Instr.wf c (.decChunk x) = true := hfit
  rw [respond_encode hc hwf]
  exact readDecoded_block hc.1 x

/-- A machine given the encodings of some requests, one step for each, has read their responses in order. -/
theorem run_requests (s : State) (is : List Instr) :
    ∃ t : State, Host.Core.run core is.length { s with pending := is.map (encode Config.standard) } = .next t ∧
      t.pending = [] ∧
      t.responses = s.responses ++ is.map fun i => respond Config.standard (encode Config.standard i) := by
  obtain ⟨t, hrun, hpending, hresponses, -⟩ :=
    run_queue (is.map (encode Config.standard)) { s with pending := is.map (encode Config.standard) } rfl
  rw [List.length_map] at hrun
  rw [List.map_map] at hresponses
  exact ⟨t, hrun, hpending, hresponses⟩

/-- Settles O56: each chunk's response reads as its encode, so the host collects what ENCSTR does. -/
theorem machineCarriesOutEncStr : Obligations.MachineCarriesOutEncStr := by
  unfold Obligations.MachineCarriesOutEncStr
  intro s str _ hfit
  obtain ⟨t, hrun, hpending, hresponses⟩ := run_requests s (encStrInstrs Config.standard str)
  refine ⟨t, _, hrun, hpending, hresponses, ?_⟩
  rw [hostEncStr, encStr, encStrInstrs, List.map_map, List.map_map]
  refine congrArg _ (List.map_congr_left fun cs hcs => ?_)
  obtain ⟨hlen, hvalid⟩ := splitChunks_valid hfit hcs
  exact readWord_respond_chunk (by decide) hlen hvalid

/-- Settles O57: each element's response reads as its decode, so the host collects what DECSEQ does. -/
theorem machineCarriesOutDecSeq : Obligations.MachineCarriesOutDecSeq := by
  unfold Obligations.MachineCarriesOutDecSeq
  intro s xs _ hfit
  obtain ⟨t, hrun, hpending, hresponses⟩ := run_requests s (decSeqInstrs xs)
  refine ⟨t, _, hrun, hpending, hresponses, ?_⟩
  rw [hostDecSeq, decSeq, decSeqInstrs, List.map_map, List.map_map]
  exact congrArg (fun l => joinChunks (collectFrom 0 l)) (List.map_congr_left fun x hx =>
    readDecoded_respond_operand (by decide) (hfit x hx))

end Sys2Proof.Machine
end
